-- ==== Sys2Proof/Config.lean ====
section
/-! DEFINITION. What is fixed for a run: the parameters of spec/00_scope.md R5. State carries one Config, which no
step changes, so that a statement about every state is a statement about every setting of the parameters (R32). -/

namespace Sys2Proof

/-- R5, R32: the parameters of the step relation. INPUT and PROGRAM are not here: they are the initial contents of
IN_BUF and MEM (R26, R32). -/
structure Config where
  /-- MS, the number of memory cells and the modulus of PC and SP; at least 1 (D22). -/
  memorySize : Nat
  /-- LIMIT, the instruction-count limit; OPEN, no default in the spec (D14). -/
  limit : Nat
  /-- BRANCH_ALU_ALWAYS: a branch that is not taken still drives the ALU; OPEN, default true (D11). -/
  branchAluAlways : Bool
  /-- COUNT_HALTING: the instruction that raises the halt condition is counted; OPEN, default true (D13). -/
  countHalting : Bool
deriving DecidableEq, Repr

/-- R5: the defaults the spec gives (MS 200, both switches true).
DESIGN CHOICE (unsafe; log entry 2): LIMIT has no default in the spec; 1000 is the value the spec's vectors use. -/
def Config.default : Config :=
  { memorySize := 200, limit := 1000, branchAluAlways := true, countHalting := true }

/-- R5: OUTPUT_PORT, the only output port. -/
def outputPort : Int := 1

end Sys2Proof
end

