-- ==== Sys2Proof/Word.lean ====
section
/-! DEFINITION. The machine word, what one memory cell holds (spec/30_encoding.md R60 to R64). The values the machine
computes with are mathematical integers, signed and of no width (spec/00_scope.md R6, D1): they are Lean's Int, and no
part of the model is a bit vector. -/

namespace Sys2Proof

/-- R61, R64: the closed set of 20 opcode tags, in the order of R64's column `ord`.
`input` is the tag `in`, which Lean reserves as a keyword. -/
inductive Opcode where
  | nop | inc | dec | halt | push | pop
  | load | store | add | sub | mul | div | out | input | cmp | test
  | jg | jz | jnz | jmp
deriving DecidableEq, Repr

/-- R40, R60: what one memory cell holds. The artifact's `index` is the cell's position and is not stored (R65). -/
structure MachineWord where
  opcode : Opcode
  value : Int
  isIndirect : Bool
deriving DecidableEq, Repr

/-- R23, R34, R112: the word `(nop, v, false)`, the form of an initial cell (`v = 0`) and of every cell
written at run time (`v = ToMem`). -/
def MachineWord.nopOf (v : Int) : MachineWord := ⟨.nop, v, false⟩

/-- R23, R34: what a cell that no program word was placed in holds. -/
abbrev MachineWord.blank : MachineWord := .nopOf 0

end Sys2Proof
end

