-- ==== Sys2Proof/Syntax.lean ====
section
/-! DEFINITION. The whole syntax: the 20 instructions and the 12 ALU operations of spec/opcode_table.json, the code
they are read from (a machine word, or a command to the ALU), and the entries of a machine-code artifact. -/

namespace Sys2Proof

/-- R80, R83: the closed set of 12 ALU operation tags, in the order of the table of 40_alu.md. -/
inductive AluOp where
  | incA | decA | incB | decB | add | sub | mul | div | cmp | test | skipA | skipB
deriving DecidableEq, Repr

/-- One constructor per row of spec/opcode_table.json. The first 20 are the instructions (R64): `value` is the operand
field, whole, and `indirect` the flag that runs indirect resolution, which any opcode's word may carry (R63, R68, R146).
The last 12 are the ALU operations (R84 to R95), commands of the control unit to the ALU and never a program's; each
carries exactly the operands it uses (R82). -/
inductive Instr where
  | nop (value : Int) (indirect : Bool)
  | inc (value : Int) (indirect : Bool)
  | dec (value : Int) (indirect : Bool)
  | halt (value : Int) (indirect : Bool)
  | push (value : Int) (indirect : Bool)
  | pop (value : Int) (indirect : Bool)
  | load (value : Int) (indirect : Bool)
  | store (value : Int) (indirect : Bool)
  | add (value : Int) (indirect : Bool)
  | sub (value : Int) (indirect : Bool)
  | mul (value : Int) (indirect : Bool)
  | div (value : Int) (indirect : Bool)
  | out (value : Int) (indirect : Bool)
  | input (value : Int) (indirect : Bool)
  | cmp (value : Int) (indirect : Bool)
  | test (value : Int) (indirect : Bool)
  | jg (value : Int) (indirect : Bool)
  | jz (value : Int) (indirect : Bool)
  | jnz (value : Int) (indirect : Bool)
  | jmp (value : Int) (indirect : Bool)
  | aluIncA (a : Int)
  | aluDecA (a : Int)
  | aluIncB (b : Int)
  | aluDecB (b : Int)
  | aluAdd (a b : Int)
  | aluSub (a b : Int)
  | aluMul (a b : Int)
  | aluDiv (a b : Int)
  | aluCmp (a b : Int)
  | aluTest (a b : Int)
  | aluSkipA (a : Int)
  | aluSkipB (b : Int)
deriving DecidableEq, Repr

/-- The encoding column of the 12 ALU rows: `alu(op, a, b)`, either operand possibly absent (R80, R82). -/
structure AluCommand where
  op : AluOp
  a : Option Int
  b : Option Int
deriving DecidableEq, Repr

/-- What an instruction is encoded as: a machine word (R60) or, for an ALU operation, a command to the ALU (R80). -/
inductive Code where
  | word (w : MachineWord)
  | command (c : AluCommand)
deriving DecidableEq, Repr

/-- R60, R62: the `value` field of an artifact's word as the source's data model allows it. -/
inductive ArtifactValue where
  | int (v : Int)
  | string (text : String)
  | absent
deriving DecidableEq, Repr

/-- R60, R66: one object of the artifact, before any check. -/
structure ArtifactWord where
  index : Int
  opcode : String
  value : ArtifactValue
  isIndirect : Bool
deriving DecidableEq, Repr

end Sys2Proof
end

