-- ==== Sys2Proof/WellFormed.lean ====
section
/-! DEFINITION. What may be refused, and under which name. Inside the machine nothing is ill-formed: every opcode,
every integer `value` and both settings of `is_indirect` are legal in every combination (R68), so every Instr is well
formed by its type. The checks below are those the spec places at the machine's edges: the artifact and the memory size
at load time (R200, U11) and the operands of a command to the ALU (R82, U3). -/

namespace Sys2Proof

/-- R180, R182: ConfigFault(what), "what was wrong". -/
inductive ConfigFault where
  /-- MS < 1 at load (R200, D22). Raised by the loader, which then builds no machine; safe. -/
  | memorySizeZero
  /-- An artifact word whose opcode is none of the 20 tags (R68, R200). Raised by the loader; safe. -/
  | unknownOpcode (tag : String)
  /-- An artifact word whose value is a string (R62, D6). Raised by the loader; safe. -/
  | stringValue (text : String)
  /-- An artifact word whose index names no cell (R200, D22). Raised by the loader; safe. -/
  | indexOutOfRange (index : Int)
  /-- An ALU operation asked for without an operand it uses (R82). Raised by the decoder of ALU commands and by
  execute_alu_op; no microprogram causes it (R97); safe. -/
  | missingOperand (op : AluOp)
deriving DecidableEq, Repr

/-- R82: the operation uses its left operand `a`. -/
def AluOp.usesA : AluOp → Bool
  | .incA | .decA | .skipA => true
  | .incB | .decB | .skipB => false
  | .add | .sub | .mul | .div | .cmp | .test => true

/-- R82: the operation uses its right operand `b`. -/
def AluOp.usesB : AluOp → Bool
  | .incA | .decA | .skipA => false
  | .incB | .decB | .skipB => true
  | .add | .sub | .mul | .div | .cmp | .test => true

/-- R82: every operand the operation uses is present. An operand it does not use may be present or absent. -/
def AluCommand.wellFormed (c : AluCommand) : Bool :=
  (!c.op.usesA || c.a.isSome) && (!c.op.usesB || c.b.isSome)

/-- R5, R200: the memory size is at least 1. -/
def Config.wellFormed (c : Config) : Bool := decide (1 ≤ c.memorySize)

/-- R62, R200: the value is an integer or absent. -/
def ArtifactValue.wellFormed : ArtifactValue → Bool
  | .int _ | .absent => true
  | .string _ => false

/-- R200: the index names a cell. -/
def ArtifactWord.indexInRange (memorySize : Nat) (w : ArtifactWord) : Bool :=
  decide (0 ≤ w.index ∧ w.index < memorySize)

/-- R61: the 20 tags as the serialised artifact spells them. -/
def opcodeTags : List String :=
  ["nop", "inc", "dec", "halt", "push", "pop", "load", "store", "add", "sub", "mul", "div", "out", "in", "cmp",
    "test", "jg", "jz", "jnz", "jmp"]

/-- R200: what the loader requires of one word of the artifact. -/
def ArtifactWord.wellFormed (memorySize : Nat) (w : ArtifactWord) : Bool :=
  opcodeTags.contains w.opcode && w.value.wellFormed && w.indexInRange memorySize

end Sys2Proof
end

