-- ==== Sys2Proof/Decode.lean ====
section
/-! DEFINITION. The decoder, total on any code and rejecting by name, and after it the encoder, both from the tables of
spec/30_encoding.md and spec/opcode_table.json; the artifact's words; and the numbers of spec/opcode_table.json. -/

namespace Sys2Proof

/-- R64: "read `opcode`, look the tag up in this table, done". Every machine word is an instruction (R68). -/
def decodeWord (w : MachineWord) : Instr :=
  match w.opcode with
  | .nop => .nop w.value w.isIndirect
  | .inc => .inc w.value w.isIndirect
  | .dec => .dec w.value w.isIndirect
  | .halt => .halt w.value w.isIndirect
  | .push => .push w.value w.isIndirect
  | .pop => .pop w.value w.isIndirect
  | .load => .load w.value w.isIndirect
  | .store => .store w.value w.isIndirect
  | .add => .add w.value w.isIndirect
  | .sub => .sub w.value w.isIndirect
  | .mul => .mul w.value w.isIndirect
  | .div => .div w.value w.isIndirect
  | .out => .out w.value w.isIndirect
  | .input => .input w.value w.isIndirect
  | .cmp => .cmp w.value w.isIndirect
  | .test => .test w.value w.isIndirect
  | .jg => .jg w.value w.isIndirect
  | .jz => .jz w.value w.isIndirect
  | .jnz => .jnz w.value w.isIndirect
  | .jmp => .jmp w.value w.isIndirect

/-- R82: an ALU operation with the operands it uses; "An operand the operation does not use is ignored". -/
def decodeCommand (c : AluCommand) : Except ConfigFault Instr :=
  match c.op, c.a, c.b with
  | .incA, some a, _ => .ok (.aluIncA a)
  | .decA, some a, _ => .ok (.aluDecA a)
  | .incB, _, some b => .ok (.aluIncB b)
  | .decB, _, some b => .ok (.aluDecB b)
  | .add, some a, some b => .ok (.aluAdd a b)
  | .sub, some a, some b => .ok (.aluSub a b)
  | .mul, some a, some b => .ok (.aluMul a b)
  | .div, some a, some b => .ok (.aluDiv a b)
  | .cmp, some a, some b => .ok (.aluCmp a b)
  | .test, some a, some b => .ok (.aluTest a b)
  | .skipA, some a, _ => .ok (.aluSkipA a)
  | .skipB, _, some b => .ok (.aluSkipB b)
  | op, _, _ => .error (.missingOperand op)

/-- The decoder: total, and a refusal has a name. -/
def decode : Code → Except ConfigFault Instr
  | .word w => .ok (decodeWord w)
  | .command c => decodeCommand c

/-- The encoder, written from the `encoding` column of spec/opcode_table.json: a machine word for an instruction, a
command (with the unused operand absent) for an ALU operation. -/
def encode : Instr → Code
  | .nop v i => .word ⟨.nop, v, i⟩
  | .inc v i => .word ⟨.inc, v, i⟩
  | .dec v i => .word ⟨.dec, v, i⟩
  | .halt v i => .word ⟨.halt, v, i⟩
  | .push v i => .word ⟨.push, v, i⟩
  | .pop v i => .word ⟨.pop, v, i⟩
  | .load v i => .word ⟨.load, v, i⟩
  | .store v i => .word ⟨.store, v, i⟩
  | .add v i => .word ⟨.add, v, i⟩
  | .sub v i => .word ⟨.sub, v, i⟩
  | .mul v i => .word ⟨.mul, v, i⟩
  | .div v i => .word ⟨.div, v, i⟩
  | .out v i => .word ⟨.out, v, i⟩
  | .input v i => .word ⟨.input, v, i⟩
  | .cmp v i => .word ⟨.cmp, v, i⟩
  | .test v i => .word ⟨.test, v, i⟩
  | .jg v i => .word ⟨.jg, v, i⟩
  | .jz v i => .word ⟨.jz, v, i⟩
  | .jnz v i => .word ⟨.jnz, v, i⟩
  | .jmp v i => .word ⟨.jmp, v, i⟩
  | .aluIncA a => .command ⟨.incA, some a, none⟩
  | .aluDecA a => .command ⟨.decA, some a, none⟩
  | .aluIncB b => .command ⟨.incB, none, some b⟩
  | .aluDecB b => .command ⟨.decB, none, some b⟩
  | .aluAdd a b => .command ⟨.add, some a, some b⟩
  | .aluSub a b => .command ⟨.sub, some a, some b⟩
  | .aluMul a b => .command ⟨.mul, some a, some b⟩
  | .aluDiv a b => .command ⟨.div, some a, some b⟩
  | .aluCmp a b => .command ⟨.cmp, some a, some b⟩
  | .aluTest a b => .command ⟨.test, some a, some b⟩
  | .aluSkipA a => .command ⟨.skipA, some a, none⟩
  | .aluSkipB b => .command ⟨.skipB, none, some b⟩

/-- R82: a command without the operands its operation ignores; a machine word as it is. Two codes of one normal form
mean the same instruction. -/
def normalCode : Code → Code
  | .word w => .word w
  | .command c => .command ⟨c.op, if c.op.usesA then c.a else none, if c.op.usesB then c.b else none⟩

/-! The artifact (R60 to R66). -/

/-- R61: "In the serialised artifact the tag is the lower-case name". -/
def opcodeTag : Opcode → String
  | .nop => "nop" | .inc => "inc" | .dec => "dec" | .halt => "halt" | .push => "push" | .pop => "pop"
  | .load => "load" | .store => "store" | .add => "add" | .sub => "sub" | .mul => "mul" | .div => "div"
  | .out => "out" | .input => "in" | .cmp => "cmp" | .test => "test"
  | .jg => "jg" | .jz => "jz" | .jnz => "jnz" | .jmp => "jmp"

/-- R64: the opcodes in the table's order. -/
def opcodes : List Opcode :=
  [.nop, .inc, .dec, .halt, .push, .pop, .load, .store, .add, .sub, .mul, .div, .out, .input, .cmp, .test,
    .jg, .jz, .jnz, .jmp]

/-- R61, R68: the opcode a tag names; none where it is not one of the 20. -/
def opcodeOfTag (tag : String) : Option Opcode := opcodes.find? fun o => opcodeTag o == tag

/-- R200: one word of the artifact, checked in the order of R200's procedure: the cell it goes to and what the cell
then holds; "absent becomes 0". -/
def decodeArtifactWord (memorySize : Nat) (w : ArtifactWord) : Except ConfigFault (Nat × MachineWord) :=
  match opcodeOfTag w.opcode with
  | none => .error (.unknownOpcode w.opcode)
  | some op =>
    match w.value with
    | .string text => .error (.stringValue text)
    | .int v =>
      if w.indexInRange memorySize then .ok (w.index.toNat, ⟨op, v, w.isIndirect⟩)
      else .error (.indexOutOfRange w.index)
    | .absent =>
      if w.indexInRange memorySize then .ok (w.index.toNat, ⟨op, 0, w.isIndirect⟩)
      else .error (.indexOutOfRange w.index)

/-- R66: the object of the artifact that places a word in a cell. -/
def encodeArtifactWord (index : Nat) (w : MachineWord) : ArtifactWord :=
  ⟨index, opcodeTag w.opcode, .int w.value, w.isIndirect⟩

/-! The numbers of spec/opcode_table.json (R72, D19). They "carry no meaning in the hardware": they are read here only
because the host numbers the table's rows by them. -/

/-- R72: the opcode of an ordinal. -/
def opcodeOfOrdinal (n : Nat) : Option Opcode := opcodes[n]?

/-- R72: `match` is the ordinal and `mask` is 0x1F, so bits 4..0 select the opcode and the other bits are not decoded.
The table gives `value` and `is_indirect` no bits: they read as 0 and false.
DESIGN CHOICE (safe; log entry 3): the ordinals 0 to 11 also number the ALU rows, which no cell holds and nothing
fetches; a number is read as the word a cell can hold. -/
def tableWord (_nbits w : Nat) : Option MachineWord :=
  (opcodeOfOrdinal (w % 32)).map fun op => ⟨op, 0, false⟩

/-- The instruction the decoder reads from a row's number. -/
def decodeTableWord (nbits w : Nat) : Option Instr :=
  (tableWord nbits w).map decodeWord

end Sys2Proof
end

