-- ==== Sys2Proof/Machine/State.lean ====
section
/-! DEFINITION. The machine's state (spec/10_state.md), the events that end a run (spec/60_exceptions.md), the reasons
a step can have no next state, and the state after reset. -/

namespace Sys2Proof.Machine

/-- R19, R24, R81: a pair of condition flags, N (negative) and Z (zero). -/
structure Flags where
  n : Bool
  z : Bool
deriving DecidableEq, Repr

/-- R19, R24: "the ALU's startup flags (both false)". -/
def Flags.startup : Flags := ⟨false, false⟩

/-- R24: the ALU's held outputs, the result and the two live flags. -/
structure AluOutputs where
  result : Int
  flags : Flags
deriving DecidableEq, Repr

/-- R10, R25: the ALU's recorded operands and operation tag, "never read".
DESIGN CHOICE (safe; log entry 5): R25 lets a model omit them; here they hold the inputs of the latest computation. -/
structure AluInputs where
  srcA : Option Int
  srcB : Option Int
  op : Option AluOp
deriving DecidableEq, Repr

/-- R183: the two causes of the halt condition. -/
inductive HaltCause where
  /-- The halt opcode (R143). -/
  | haltInstr
  /-- An input read on an empty input buffer (R106, R160). -/
  | inputExhausted
deriving DecidableEq, Repr

/-- R180: the fatal events. -/
inductive FatalFault where
  /-- R181: raised by latch_dr, latch_ir and write_memory; records the offending Addr. -/
  | addressFault (addr : Int)
  /-- R182: raised by execute_alu_op on an absent operand (no microprogram causes it, R97). -/
  | configFault (what : ConfigFault)
deriving DecidableEq, Repr

/-- What a signal, or the halt opcode, can raise (R7, R100, R183). -/
inductive Event where
  | halt (cause : HaltCause)
  | fatal (f : FatalFault)
deriving DecidableEq, Repr

/-- R30: the run's state. -/
inductive Status where
  | running
  | halted (cause : HaltCause)
  | limitReached
  | faulted (f : FatalFault)
deriving DecidableEq, Repr

/-- R31, R180: the diagnostics, abstract tags (D21). -/
inductive Diagnostic where
  | divByZero
  | limitExceeded
deriving DecidableEq, Repr

/-- Why a step has no next state. Only a run that is over has none (R30, R183): every constructor is answered by
Machine.step alone, on a state that an earlier step left with that status. All are safe: the machine is stopped. -/
inductive Fault where
  /-- The run has ended by the halt condition: "a halted machine has no next step" (R183). Raised by step; safe. -/
  | halted (cause : HaltCause)
  /-- The run has ended at the limit (R184). Raised by step; safe. -/
  | limitReached
  /-- The run has been aborted: "execution does not continue" (R181). Raised by step; safe. -/
  | faulted (f : FatalFault)
deriving DecidableEq, Repr

/-- What has no meaning. -/
inductive Refusal where
  /-- An instruction without a meaning in this model. Raised by no arm of exec; safe. -/
  | notModelled (mnemonic : String)
  /-- The loader's refusal: ConfigFault, "no machine is built" (R182, R200, U11). Raised by Machine.load; safe. -/
  | configFault (what : ConfigFault)
deriving DecidableEq, Repr

/-- R23, R40: main memory, MS cells of one machine word each. The list holds, by strictly rising cell index, the cells
that do not hold `MachineWord.blank`; every other cell holds it (`Memory.wf` in Machine/Ops.lean).
DESIGN CHOICE (safe; log entry 1): the unit is the structured word, since memory has no bytes (R44). -/
abbrev Memory := List (Nat × MachineWord)

/-- R10: the whole state. `cfg` is not state of the hardware: it is the parameters of the run (R32), which no step
changes. -/
structure State where
  /-- The run's parameters MS, LIMIT, BRANCH_ALU_ALWAYS, COUNT_HALTING (R5, R32). -/
  cfg : Config
  /-- MEM (R23, R40). -/
  mem : Memory
  /-- PC, in 0..MS-1 (R16). -/
  pc : Int
  /-- SP, in 0..MS-1 (R17). -/
  sp : Int
  /-- AC, the accumulator (R11). -/
  ac : Int
  /-- DR, the data register (R12). -/
  dr : Int
  /-- Addr, the address register (R13). -/
  addr : Int
  /-- ToMem, the to-memory register (R14). -/
  toMem : Int
  /-- IR, the instruction register, a whole machine word (R18). -/
  ir : MachineWord
  /-- PS, the program-status register (R19). -/
  ps : Flags
  /-- ALU.result, ALU.N, ALU.Z (R24). -/
  alu : AluOutputs
  /-- ALU.src_a, ALU.src_b, ALU.op (R25); never read. -/
  aluInputs : AluInputs
  /-- IN_BUF, code points, first at the head (R26, D28). -/
  inBuf : List Int
  /-- OUT_BUF (R27). -/
  outBuf : List Int
  /-- TICK (R28). -/
  tick : Nat
  /-- INSTR (R29). -/
  instr : Nat
  /-- STATUS (R30). -/
  status : Status
  /-- DIAG, oldest first (R31). -/
  diag : List Diagnostic
deriving DecidableEq, Repr

/-- R113, R200: the state the initializer builds from the parameters and the input, before any word of a program is
placed. Every reset value is that of the table of R10. -/
def State.initial (cfg : Config) (input : List Int) : State where
  cfg := cfg
  mem := []
  pc := 0
  sp := 0
  ac := 0
  dr := 0
  addr := 0
  toMem := 0
  ir := .blank
  ps := .startup
  alu := ⟨0, .startup⟩
  aluInputs := ⟨none, none, none⟩
  inBuf := input
  outBuf := []
  tick := 0
  instr := 0
  status := .running
  diag := []

/-- The machine right after reset with no program word placed (R34, R200).
DESIGN CHOICE (unsafe; log entry 2): INPUT is empty and LIMIT is 1000, since the spec gives neither a default. -/
def State.reset : State := .initial .default []

end Sys2Proof.Machine
end

