-- ==== Sys2Proof/Machine/Flags.lean ====
section
/-! DEFINITION. Every flag computation of the spec: the flags of a value, and the number FROM_PS makes of them. -/

namespace Sys2Proof.Machine

/-- R81: `N = value < 0`, `Z = value == 0`. -/
def flagsOf (v : Int) : Flags := ⟨decide (v < 0), decide (v = 0)⟩

/-- R6: a Boolean used as a number; only the FROM_PS packing does so. -/
def boolValue (b : Bool) : Int := if b then 1 else 0

/-- R110: the selector FROM_PS "packs N*100+Z*10 as a 2-digit-coded integer". -/
def packFlags (f : Flags) : Int := 100 * boolValue f.n + 10 * boolValue f.z

end Sys2Proof.Machine
end

