-- ==== Sys2Proof/Machine/Alu.lean ====
section
/-! DEFINITION. The ALU (spec/40_alu.md): the arithmetic of its twelve operations and one computation. -/

namespace Sys2Proof.Machine

/-- R6: `floor(a / b)` for `b ≠ 0`, the greatest integer not above the quotient. -/
def floorDiv (a b : Int) : Int := a.fdiv b

/-- R6: the AND of the infinite two's-complement forms. `-(m + 1)` is the complement of `m`, and `m - (m AND n)` clears
in `m` the bits of `n`. -/
def bitAnd : Int → Int → Int
  | .ofNat m, .ofNat n => .ofNat (m &&& n)
  | .ofNat m, .negSucc n => .ofNat (m - (m &&& n))
  | .negSucc m, .ofNat n => .ofNat (n - (n &&& m))
  | .negSucc m, .negSucc n => .negSucc (m ||| n)

/-- R80: the value `v` of a computation, from the operands it is given; none where an operand it uses is absent (R82).
The source's table: R84 to R95. -/
def aluValue (op : AluOp) (a b : Option Int) : Option Int :=
  match op with
  | .incA => a.map fun x => x + 1
  | .decA => a.map fun x => x - 1
  | .incB => b.map fun y => y + 1
  | .decB => b.map fun y => y - 1
  | .add => a.bind fun x => b.map fun y => x + y
  | .sub => a.bind fun x => b.map fun y => x - y
  | .mul => a.bind fun x => b.map fun y => x * y
  | .div => a.bind fun x => b.map fun y => if y = 0 then 0 else floorDiv x y
  | .cmp => a.bind fun x => b.map fun y => x - y
  | .test => a.bind fun x => b.map fun y => bitAnd x y
  | .skipA => a
  | .skipB => b

/-- R80, column `stored`: CMP and TEST leave `ALU.result` as it was. -/
def aluStores : AluOp → Bool
  | .cmp | .test => false
  | .incA | .decA | .incB | .decB | .add | .sub | .mul | .div | .skipA | .skipB => true

/-- R91, R185: DIAG after a computation: a division by zero is recorded. -/
def aluDiagnostics (op : AluOp) (b : Option Int) (diag : List Diagnostic) : List Diagnostic :=
  match op with
  | .div => if b = some 0 then diag ++ [.divByZero] else diag
  | .incA | .decA | .incB | .decB | .add | .sub | .mul | .cmp | .test | .skipA | .skipB => diag

/-- R80: the state after a computation whose value is `v`: the result where it is stored, both flags, the diagnostic.
The inputs are recorded as well (log entry 5). -/
def aluWrite (op : AluOp) (a b : Option Int) (v : Int) (s : State) : State :=
  { s with
    alu := ⟨if aluStores op then v else s.alu.result, flagsOf v⟩
    aluInputs := ⟨a, b, some op⟩
    diag := aluDiagnostics op b s.diag }

end Sys2Proof.Machine
end

