-- ==== Sys2Proof/Machine/Operands.lean ====
section
/-! DEFINITION. Every operand form of the spec: the selectors that feed the ALU and AC (spec/41_datapath_signals.md
R106, R109, R110), the cell a read or a write address names (spec/20_memory.md R42, R43), and the operand of an
instruction, direct or through one pointer (spec/30_encoding.md R67). -/

namespace Sys2Proof.Machine

/-- R110: what can be the ALU's left operand. -/
inductive LeftSelector where
  | fromAc | fromPs
deriving DecidableEq, Repr

/-- R110: what can be the ALU's right operand. -/
inductive RightSelector where
  | fromDr | fromPc | fromSp
deriving DecidableEq, Repr

/-- R106: what AC is latched from. -/
inductive AcSelector where
  | fromAlu | fromInput
deriving DecidableEq, Repr

/-- R109: the left operand. -/
def leftOperand (s : State) : LeftSelector → Int
  | .fromAc => s.ac
  | .fromPs => packFlags s.ps

/-- R109: the right operand. -/
def rightOperand (s : State) : RightSelector → Int
  | .fromDr => s.dr
  | .fromPc => s.pc
  | .fromSp => s.sp

/-- The word in a cell; a cell the list does not name holds `(nop, 0, false)` (R23, R34). -/
def readCell : Memory → Nat → MachineWord
  | [], _ => .blank
  | (k, w) :: m, i => if k = i then w else readCell m i

/-- R42: the checked read of a memory of `memorySize` cells; none is the AddressFault. A read is admitted exactly when
`0 <= addr < MS`. -/
def readAt (memorySize : Nat) (m : Memory) (addr : Int) : Option MachineWord :=
  if 0 ≤ addr ∧ addr < memorySize then some (readCell m addr.toNat) else none

/-- R42: `MemRead(addr, 1)`. -/
def memRead (s : State) (addr : Int) : Option MachineWord := readAt s.cfg.memorySize s.mem addr

/-- R43: the cell that a write address names, an address from -MS to -1 counting from the end of memory; none is the
AddressFault. -/
def writeIndex (memorySize : Nat) (addr : Int) : Option Nat :=
  if 0 ≤ addr ∧ addr < memorySize then some addr.toNat
  else if -(memorySize : Int) ≤ addr ∧ addr < 0 then some (addr + memorySize).toNat
  else none

/-- R67: what DR holds on entry to execute: `value` itself, or for an indirect word the `value` of the cell it points
at; none where indirect resolution faults (R123). -/
def operandOf (s : State) (value : Int) (indirect : Bool) : Option Int :=
  if indirect then (memRead s value).map fun w => w.value else some value

/-- R103, R104: `v mod MS`, the floor modulus. -/
def wrap (s : State) (v : Int) : Int := v % (s.cfg.memorySize : Int)

end Sys2Proof.Machine
end

