-- ==== Sys2Proof/Machine/Ops.lean ====
section
/-! DEFINITION. The shared operations: memory, every signal of spec/41_datapath_signals.md, the sequencing of signals
into ticks (spec/42_control_unit.md R121), and what the control unit does when a signal raises (R120, R183, R181). -/

namespace Sys2Proof.Machine

/-! ### Memory -/

/-- The cells but for cell `i`. -/
def eraseCell (i : Nat) : Memory → Memory
  | [] => []
  | (k, w) :: m => if k = i then eraseCell i m else (k, w) :: eraseCell i m

/-- Cell `i` put in before the first cell of a higher index. -/
def insertCell (i : Nat) (w : MachineWord) : Memory → Memory
  | [] => [(i, w)]
  | (k, v) :: m => if i < k then (i, w) :: (k, v) :: m else (k, v) :: insertCell i w m

/-- A cell holds `w` from now on; a cell that holds `(nop, 0, false)` is not listed. -/
def setCell (i : Nat) (w : MachineWord) (m : Memory) : Memory :=
  if w = .blank then eraseCell i m else insertCell i w (eraseCell i m)

/-- The canonical form: indices strictly rising, and no listed cell holds what an unlisted one does. -/
abbrev Memory.wf (m : Memory) : Prop :=
  (m.map Prod.fst).Pairwise (· < ·) ∧ ∀ c ∈ m, c.2 ≠ MachineWord.blank

/-- R40: every listed cell is one of the `memorySize` cells. -/
abbrev Memory.fits (memorySize : Nat) (m : Memory) : Prop := ∀ c ∈ m, c.1 < memorySize

/-- R43: `MemWrite(addr, 1, w)`; none is the AddressFault, with memory unchanged. -/
def memWrite (s : State) (addr : Int) (w : MachineWord) : Option State :=
  (writeIndex s.cfg.memorySize addr).map fun i => { s with mem := setCell i w s.mem }

/-! ### What a signal answers -/

/-- R100: "A signal either completes or raises". The state beside an event is the one the signals before it left. -/
inductive SignalResult where
  | done (s : State)
  | raised (e : Event) (s : State)
deriving DecidableEq, Repr

/-- What comes next is done only where the earlier part has not raised (R120). -/
def SignalResult.bind (r : SignalResult) (f : State → SignalResult) : SignalResult :=
  match r with
  | .done s => f s
  | .raised e s => .raised e s

/-! ### The signals -/

/-- R101. -/
def latchAddr (s : State) : State := { s with addr := s.alu.result }

/-- R103. -/
def latchPc (s : State) : State := { s with pc := wrap s s.alu.result }

/-- R104. -/
def latchSp (s : State) : State := { s with sp := wrap s s.alu.result }

/-- R107. -/
def latchToMem (s : State) : State := { s with toMem := s.alu.result }

/-- R108. -/
def latchPsFlags (s : State) : State := { s with ps := s.alu.flags }

/-- R102. -/
def latchDr (s : State) : SignalResult :=
  match memRead s s.addr with
  | some w => .done { s with dr := w.value }
  | none => .raised (.fatal (.addressFault s.addr)) s

/-- R105. -/
def latchIr (s : State) : SignalResult :=
  match memRead s s.addr with
  | some w => .done { s with ir := w }
  | none => .raised (.fatal (.addressFault s.addr)) s

/-- R106. -/
def latchAc (sel : AcSelector) (s : State) : SignalResult :=
  match sel with
  | .fromAlu => .done { s with ac := s.alu.result }
  | .fromInput =>
    match s.inBuf with
    | [] => .raised (.halt .inputExhausted) s
    | c :: rest => .done { s with ac := c, inBuf := rest }

/-- R80, R82: one computation; an absent operand that the operation uses is a ConfigFault. -/
def aluCompute (op : AluOp) (a b : Option Int) (s : State) : SignalResult :=
  match aluValue op a b with
  | some v => .done (aluWrite op a b v s)
  | none => .raised (.fatal (.configFault (.missingOperand op))) s

/-- R109. -/
def executeAluOp (op : AluOp) (left : Option LeftSelector) (right : Option RightSelector) (s : State) : SignalResult :=
  aluCompute op (left.map (leftOperand s)) (right.map (rightOperand s)) s

/-- R111, R192. -/
def output (s : State) : State :=
  if s.dr = outputPort then { s with outBuf := s.outBuf ++ [s.ac] } else s

/-- R112. -/
def writeMemory (s : State) : SignalResult :=
  match memWrite s s.addr (.nopOf s.toMem) with
  | some t => .done t
  | none => .raised (.fatal (.addressFault s.addr)) s

/-- R100: the closed set of signals. -/
inductive Signal where
  | latchAddr | latchDr | latchPc | latchSp | latchIr
  | latchAc (sel : AcSelector)
  | latchToMem | latchPsFlags
  | executeAluOp (op : AluOp) (left : Option LeftSelector) (right : Option RightSelector)
  | output | writeMemory
deriving DecidableEq, Repr

/-- The signal's effect on the datapath. -/
def runSignal (g : Signal) (s : State) : SignalResult :=
  match g with
  | .latchAddr => .done (Machine.latchAddr s)
  | .latchDr => Machine.latchDr s
  | .latchPc => .done (Machine.latchPc s)
  | .latchSp => .done (Machine.latchSp s)
  | .latchIr => Machine.latchIr s
  | .latchAc sel => Machine.latchAc sel s
  | .latchToMem => .done (Machine.latchToMem s)
  | .latchPsFlags => .done (Machine.latchPsFlags s)
  | .executeAluOp op l r => Machine.executeAluOp op l r s
  | .output => .done (Machine.output s)
  | .writeMemory => Machine.writeMemory s

/-! ### Ticks and microprograms -/

/-- What a microprogram issues: a signal of the datapath, or the control unit's own `raise Halt(HaltInstr)` (R143). -/
inductive MicroOp where
  | signal (g : Signal)
  | raiseHalt
deriving DecidableEq, Repr

/-- R121: "a group is a list of signals followed by `tick()`". -/
abbrev Group := List MicroOp

/-- R9, R121: "the ordered list of signals, grouped into ticks, that the control unit issues for one phase". -/
abbrev Microprogram := List Group

/-- R28, R121: `TICK <- TICK + 1`. -/
def tick (s : State) : State := { s with tick := s.tick + 1 }

/-- One entry of a group. -/
def runOp (o : MicroOp) (s : State) : SignalResult :=
  match o with
  | .signal g => runSignal g s
  | .raiseHalt => .raised (.halt .haltInstr) s

/-- R8, R121: one after another in the order written, each seeing the state the one before left. -/
def runOps : List MicroOp → State → SignalResult
  | [], s => .done s
  | o :: rest, s => (runOp o s).bind (runOps rest)

/-- R121: `tick()` comes last in its group, so a group that raises is not charged. -/
def runGroup (g : Group) (s : State) : SignalResult :=
  (runOps g s).bind fun t => .done (tick t)

/-- R120: the groups in order; "When a signal raises, the signals after it in the microprogram are not issued". -/
def runMicroprogram : Microprogram → State → SignalResult
  | [], s => .done s
  | g :: rest, s => (runGroup g s).bind (runMicroprogram rest)

/-! ### Events: the one operation that takes an event, and the limit -/

/-- R120, R181, R183: what the control unit does on an event. Nothing is saved, no vector is entered and nothing returns
(R188, R189): STATUS records the event, and the halting instruction is counted if COUNT_HALTING. -/
def takeEvent (e : Event) (s : State) : State :=
  match e with
  | .halt cause =>
    { s with status := .halted cause, instr := if s.cfg.countHalting then s.instr + 1 else s.instr }
  | .fatal f => { s with status := .faulted f }

/-- R120, R184: the run is stopped before a fetch and a warning is recorded. -/
def reachLimit (s : State) : State :=
  { s with status := .limitReached, diag := s.diag ++ [.limitExceeded] }

/-- R120, R125: the end of an instruction that raised nothing: the flag latch, without a tick, and `INSTR + 1`. -/
def retire (s : State) : State := { latchPsFlags s with instr := s.instr + 1 }

/-- The state an instruction leaves, from how its signals ended (R120). -/
def settle : SignalResult → State
  | .done s => retire s
  | .raised e s => takeEvent e s

end Sys2Proof.Machine
end

