-- ==== Sys2Proof/Machine/Control.lean ====
section
/-! DEFINITION. The phases common to every instruction (spec/42_control_unit.md): fetch, indirect resolution, and the
frame in which an instruction's own microprogram runs. -/

namespace Sys2Proof.Machine

/-- The signal that drives the ALU from a left selector alone, as the spec writes `alu(OP, a=…)` (R109). -/
def aluLeft (op : AluOp) (l : LeftSelector) : MicroOp := .signal (.executeAluOp op (some l) none)

/-- `alu(OP, b=…)` (R109). -/
def aluRight (op : AluOp) (r : RightSelector) : MicroOp := .signal (.executeAluOp op none (some r))

/-- `alu(OP, a=…, b=…)` (R109). -/
def aluBoth (op : AluOp) (l : LeftSelector) (r : RightSelector) : MicroOp :=
  .signal (.executeAluOp op (some l) (some r))

/-- R122, T1: `Addr <- PC`. -/
def fetchT1 : Group := [aluRight .skipB .fromPc, .signal .latchAddr]

/-- R122, T2: `PC <- (PC+1) mod MS`, `IR <- MEM[Addr]`, `DR <- MEM[Addr].value`. -/
def fetchT2 : Group :=
  [aluRight .incB .fromPc, .signal .latchPc, .signal .latchIr, .signal .latchDr]

/-- R122: fetch, "always 2 ticks". -/
def fetch (s : State) : SignalResult := runMicroprogram [fetchT1, fetchT2] s

/-- The state with `w` in the cell that PC names, the cell the next fetch reads (R122); a PC outside memory names none. -/
def placeWord (s : State) (w : MachineWord) : State :=
  if 0 ≤ s.pc ∧ s.pc < s.cfg.memorySize then { s with mem := setCell s.pc.toNat w s.mem } else s

/-- R123, T1: `Addr <- DR`. -/
def indirectT1 : Group := [aluRight .skipB .fromDr, .signal .latchAddr]

/-- R123, T2: `DR <- MEM[Addr].value`. -/
def indirectT2 : Group := [.signal .latchDr]

/-- R123: indirect resolution, run for any opcode whose word has `is_indirect` set. -/
def indirectResolve (s : State) : SignalResult := runMicroprogram [indirectT1, indirectT2] s

/-- What fetch leaves of the fetched word (R122): IR holds it and DR its `value`. On a state that fetch has left with
that word it changes nothing (log entry 9). -/
def enter (w : MachineWord) (s : State) : State := { s with ir := w, dr := w.value }

/-- R120 after the fetch of `w`: indirect resolution if `is_indirect`, then the opcode's microprogram, which may look at
the state it starts in (a branch looks at PS, R170). -/
def afterFetch (w : MachineWord) (micro : State → Microprogram) (s : State) : SignalResult :=
  (if w.isIndirect then indirectResolve (enter w s) else .done (enter w s)).bind fun t => runMicroprogram (micro t) t

/-- R120: one instruction from its fetched word to the end of the step: the phases, then the flag latch and the count,
or the event taken. Always a next state. -/
def runInstr (w : MachineWord) (micro : State → Microprogram) (s : State) : Host.Outcome State Fault Refusal :=
  .next (settle (afterFetch w micro s))

/-- An ALU operation on its own (R80, R98): one computation and nothing else, no tick and no flag latch. A computation
without an operand it uses is the fatal ConfigFault; an Instr carries the operands its operation uses. -/
def runAluCommand (op : AluOp) (a b : Option Int) (s : State) : Host.Outcome State Fault Refusal :=
  match aluCompute op a b s with
  | .done t => .next t
  | .raised e t => .next (takeEvent e t)

end Sys2Proof.Machine
end

