-- ==== Sys2Proof/Machine/AluOps.lean ====
section
/-! DEFINITION. The meaning of the 12 ALU operations of spec/opcode_table.json (spec/40_alu.md R84 to R95), each as one command
to the ALU. They are selected by the control unit and never by a program: no cell holds one and step runs none by itself
(log entry 4). -/

namespace Sys2Proof.Machine

/-- R84: INC_A. -/
def execAluIncA (a : Int) (s : State) : Host.Outcome State Fault Refusal :=
  runAluCommand .incA (some a) none s

/-- R85: DEC_A. -/
def execAluDecA (a : Int) (s : State) : Host.Outcome State Fault Refusal :=
  runAluCommand .decA (some a) none s

/-- R86: INC_B. -/
def execAluIncB (b : Int) (s : State) : Host.Outcome State Fault Refusal :=
  runAluCommand .incB none (some b) s

/-- R87: DEC_B. -/
def execAluDecB (b : Int) (s : State) : Host.Outcome State Fault Refusal :=
  runAluCommand .decB none (some b) s

/-- R88: ADD. -/
def execAluAdd (a b : Int) (s : State) : Host.Outcome State Fault Refusal :=
  runAluCommand .add (some a) (some b) s

/-- R89: SUB. -/
def execAluSub (a b : Int) (s : State) : Host.Outcome State Fault Refusal :=
  runAluCommand .sub (some a) (some b) s

/-- R90: MUL. -/
def execAluMul (a b : Int) (s : State) : Host.Outcome State Fault Refusal :=
  runAluCommand .mul (some a) (some b) s

/-- R91: DIV. -/
def execAluDiv (a b : Int) (s : State) : Host.Outcome State Fault Refusal :=
  runAluCommand .div (some a) (some b) s

/-- R92: CMP. -/
def execAluCmp (a b : Int) (s : State) : Host.Outcome State Fault Refusal :=
  runAluCommand .cmp (some a) (some b) s

/-- R93: TEST. -/
def execAluTest (a b : Int) (s : State) : Host.Outcome State Fault Refusal :=
  runAluCommand .test (some a) (some b) s

/-- R94: SKIP_A. -/
def execAluSkipA (a : Int) (s : State) : Host.Outcome State Fault Refusal :=
  runAluCommand .skipA (some a) none s

/-- R95: SKIP_B. -/
def execAluSkipB (b : Int) (s : State) : Host.Outcome State Fault Refusal :=
  runAluCommand .skipB none (some b) s

end Sys2Proof.Machine
end

