-- ==== Sys2Proof/Machine/Branch.lean ====
section
/-! DEFINITION. The execute phase and the meaning of the branches (spec/45_branch.md). -/

namespace Sys2Proof.Machine

/-- R170, X1: the ALU passes the target through if the branch is taken or BRANCH_ALU_ALWAYS holds; PC is latched only if
it is taken; the tick is charged either way. -/
def branchX1 (taken : Bool) (s : State) : Group :=
  (if taken || s.cfg.branchAluAlways then [aluRight .skipB .fromDr] else []) ++
    (if taken then [.signal .latchPc] else [])

/-- R171: jg is taken iff PS.N is false. -/
def jgTaken (s : State) : Bool := !s.ps.n

/-- R172: jz is taken iff PS.Z is true. -/
def jzTaken (s : State) : Bool := s.ps.z

/-- R173: jnz is taken iff PS.Z is false. -/
def jnzTaken (s : State) : Bool := !s.ps.z

/-- R174: jmp is always taken. -/
def jmpTaken (_ : State) : Bool := true

/-- R171: jg. -/
def execJg (value : Int) (indirect : Bool) (s : State) : Host.Outcome State Fault Refusal :=
  runInstr ⟨.jg, value, indirect⟩ (fun t => [branchX1 (jgTaken t) t]) s

/-- R172: jz. -/
def execJz (value : Int) (indirect : Bool) (s : State) : Host.Outcome State Fault Refusal :=
  runInstr ⟨.jz, value, indirect⟩ (fun t => [branchX1 (jzTaken t) t]) s

/-- R173: jnz. -/
def execJnz (value : Int) (indirect : Bool) (s : State) : Host.Outcome State Fault Refusal :=
  runInstr ⟨.jnz, value, indirect⟩ (fun t => [branchX1 (jnzTaken t) t]) s

/-- R174: jmp. -/
def execJmp (value : Int) (indirect : Bool) (s : State) : Host.Outcome State Fault Refusal :=
  runInstr ⟨.jmp, value, indirect⟩ (fun t => [branchX1 (jmpTaken t) t]) s

end Sys2Proof.Machine
end

