-- ==== Sys2Proof/Machine/Nullary.lean ====
section
/-! DEFINITION. The execute phase and the meaning of nop and of the nullary class (spec/43_nullary.md). -/

namespace Sys2Proof.Machine

/-! ### The groups and microprograms -/

/-- R140, X1: one tick and nothing else. -/
def nopX1 : Group := []

/-- R141, X1: `AC <- AC + 1`. -/
def incX1 : Group := [aluLeft .incA .fromAc, .signal (.latchAc .fromAlu)]

/-- R142, X1: `AC <- AC - 1`. -/
def decX1 : Group := [aluLeft .decA .fromAc, .signal (.latchAc .fromAlu)]

/-- R143, X0: the halt condition is raised before any tick. -/
def haltX0 : Group := [.raiseHalt]

/-- R144, X1: `SP <- (SP-1) mod MS`, `Addr <- SP-1`, not reduced. -/
def pushX1 : Group := [aluRight .decB .fromSp, .signal .latchSp, .signal .latchAddr]

/-- R144, X2: `ToMem <- AC`, `MEM[Addr] <- (nop, AC, false)`. -/
def pushX2 : Group := [aluLeft .skipA .fromAc, .signal .latchToMem, .signal .writeMemory]

/-- R145, X1: `Addr <- SP`. -/
def popX1 : Group := [aluRight .skipB .fromSp, .signal .latchAddr]

/-- R145, X2: `SP <- (SP+1) mod MS`, `DR <- MEM[Addr].value`. -/
def popX2 : Group := [aluRight .incB .fromSp, .signal .latchSp, .signal .latchDr]

/-- R145, X3: `AC <- DR`. -/
def popX3 : Group := [aluRight .skipB .fromDr, .signal (.latchAc .fromAlu)]

/-! ### The meanings -/

/-- R140: nop. -/
def execNop (value : Int) (indirect : Bool) (s : State) : Host.Outcome State Fault Refusal :=
  runInstr ⟨.nop, value, indirect⟩ (fun _ => [nopX1]) s

/-- R141: inc. -/
def execInc (value : Int) (indirect : Bool) (s : State) : Host.Outcome State Fault Refusal :=
  runInstr ⟨.inc, value, indirect⟩ (fun _ => [incX1]) s

/-- R142: dec. -/
def execDec (value : Int) (indirect : Bool) (s : State) : Host.Outcome State Fault Refusal :=
  runInstr ⟨.dec, value, indirect⟩ (fun _ => [decX1]) s

/-- R143: halt. -/
def execHalt (value : Int) (indirect : Bool) (s : State) : Host.Outcome State Fault Refusal :=
  runInstr ⟨.halt, value, indirect⟩ (fun _ => [haltX0]) s

/-- R144: push. -/
def execPush (value : Int) (indirect : Bool) (s : State) : Host.Outcome State Fault Refusal :=
  runInstr ⟨.push, value, indirect⟩ (fun _ => [pushX1, pushX2]) s

/-- R145: pop. -/
def execPop (value : Int) (indirect : Bool) (s : State) : Host.Outcome State Fault Refusal :=
  runInstr ⟨.pop, value, indirect⟩ (fun _ => [popX1, popX2, popX3]) s

end Sys2Proof.Machine
end

