-- ==== Sys2Proof/Machine/OperandClass.lean ====
section
/-! DEFINITION. The execute phase and the meaning of the operand class (spec/44_operand.md). -/

namespace Sys2Proof.Machine

/-! ### The groups -/

/-- R150, X1 of every instruction of the class but in: `Addr <- DR`. -/
def operandX1 : Group := [aluRight .skipB .fromDr, .signal .latchAddr]

/-- R151, X2: `DR <- MEM[Addr].value`, `AC <- DR`. -/
def loadX2 : Group := [.signal .latchDr, aluRight .skipB .fromDr, .signal (.latchAc .fromAlu)]

/-- R152, X2: `ToMem <- AC`, `MEM[Addr] <- (nop, AC, false)`. -/
def storeX2 : Group := [aluLeft .skipA .fromAc, .signal .latchToMem, .signal .writeMemory]

/-- R153 to R156, X2: the operand is read, combined with AC and latched into AC. -/
def arithX2 (op : AluOp) : Group :=
  [.signal .latchDr, aluBoth op .fromAc .fromDr, .signal (.latchAc .fromAlu)]

/-- R157, R158, X2: the operand is read and combined with AC; only the flags are kept. -/
def compareX2 (op : AluOp) : Group := [.signal .latchDr, aluBoth op .fromAc .fromDr]

/-- R159, X2: AC goes to the port that DR names. -/
def outX2 : Group := [.signal .output]

/-- R160, X1: AC from the input buffer. -/
def inX1 : Group := [.signal (.latchAc .fromInput)]

/-! ### The meanings -/

/-- R151: load. -/
def execLoad (value : Int) (indirect : Bool) (s : State) : Host.Outcome State Fault Refusal :=
  runInstr ⟨.load, value, indirect⟩ (fun _ => [operandX1, loadX2]) s

/-- R152: store. -/
def execStore (value : Int) (indirect : Bool) (s : State) : Host.Outcome State Fault Refusal :=
  runInstr ⟨.store, value, indirect⟩ (fun _ => [operandX1, storeX2]) s

/-- R153: add. -/
def execAdd (value : Int) (indirect : Bool) (s : State) : Host.Outcome State Fault Refusal :=
  runInstr ⟨.add, value, indirect⟩ (fun _ => [operandX1, arithX2 .add]) s

/-- R154: sub. -/
def execSub (value : Int) (indirect : Bool) (s : State) : Host.Outcome State Fault Refusal :=
  runInstr ⟨.sub, value, indirect⟩ (fun _ => [operandX1, arithX2 .sub]) s

/-- R155: mul. -/
def execMul (value : Int) (indirect : Bool) (s : State) : Host.Outcome State Fault Refusal :=
  runInstr ⟨.mul, value, indirect⟩ (fun _ => [operandX1, arithX2 .mul]) s

/-- R156: div. -/
def execDiv (value : Int) (indirect : Bool) (s : State) : Host.Outcome State Fault Refusal :=
  runInstr ⟨.div, value, indirect⟩ (fun _ => [operandX1, arithX2 .div]) s

/-- R157: cmp. -/
def execCmp (value : Int) (indirect : Bool) (s : State) : Host.Outcome State Fault Refusal :=
  runInstr ⟨.cmp, value, indirect⟩ (fun _ => [operandX1, compareX2 .cmp]) s

/-- R158: test. -/
def execTest (value : Int) (indirect : Bool) (s : State) : Host.Outcome State Fault Refusal :=
  runInstr ⟨.test, value, indirect⟩ (fun _ => [operandX1, compareX2 .test]) s

/-- R159: out. -/
def execOut (value : Int) (indirect : Bool) (s : State) : Host.Outcome State Fault Refusal :=
  runInstr ⟨.out, value, indirect⟩ (fun _ => [operandX1, outX2]) s

/-- R160: in. -/
def execInput (value : Int) (indirect : Bool) (s : State) : Host.Outcome State Fault Refusal :=
  runInstr ⟨.input, value, indirect⟩ (fun _ => [inX1]) s

end Sys2Proof.Machine
end

