-- ==== Sys2Proof/Machine/Dispatch.lean ====
section
/-! DEFINITION. exec: one arm per constructor of Instr (R124: "The match is on the closed set of 20 tags and is
exhaustive"; the 12 ALU operations beside them). For an instruction, exec is the part of R120's step after its fetch. -/

namespace Sys2Proof.Machine

def exec (i : Instr) (s : State) : Host.Outcome State Fault Refusal :=
  match i with
  | .nop value indirect => Sys2Proof.Machine.execNop value indirect s
  | .inc value indirect => Sys2Proof.Machine.execInc value indirect s
  | .dec value indirect => Sys2Proof.Machine.execDec value indirect s
  | .halt value indirect => Sys2Proof.Machine.execHalt value indirect s
  | .push value indirect => Sys2Proof.Machine.execPush value indirect s
  | .pop value indirect => Sys2Proof.Machine.execPop value indirect s
  | .load value indirect => Sys2Proof.Machine.execLoad value indirect s
  | .store value indirect => Sys2Proof.Machine.execStore value indirect s
  | .add value indirect => Sys2Proof.Machine.execAdd value indirect s
  | .sub value indirect => Sys2Proof.Machine.execSub value indirect s
  | .mul value indirect => Sys2Proof.Machine.execMul value indirect s
  | .div value indirect => Sys2Proof.Machine.execDiv value indirect s
  | .out value indirect => Sys2Proof.Machine.execOut value indirect s
  | .input value indirect => Sys2Proof.Machine.execInput value indirect s
  | .cmp value indirect => Sys2Proof.Machine.execCmp value indirect s
  | .test value indirect => Sys2Proof.Machine.execTest value indirect s
  | .jg value indirect => Sys2Proof.Machine.execJg value indirect s
  | .jz value indirect => Sys2Proof.Machine.execJz value indirect s
  | .jnz value indirect => Sys2Proof.Machine.execJnz value indirect s
  | .jmp value indirect => Sys2Proof.Machine.execJmp value indirect s
  | .aluIncA a => Sys2Proof.Machine.execAluIncA a s
  | .aluDecA a => Sys2Proof.Machine.execAluDecA a s
  | .aluIncB b => Sys2Proof.Machine.execAluIncB b s
  | .aluDecB b => Sys2Proof.Machine.execAluDecB b s
  | .aluAdd a b => Sys2Proof.Machine.execAluAdd a b s
  | .aluSub a b => Sys2Proof.Machine.execAluSub a b s
  | .aluMul a b => Sys2Proof.Machine.execAluMul a b s
  | .aluDiv a b => Sys2Proof.Machine.execAluDiv a b s
  | .aluCmp a b => Sys2Proof.Machine.execAluCmp a b s
  | .aluTest a b => Sys2Proof.Machine.execAluTest a b s
  | .aluSkipA a => Sys2Proof.Machine.execAluSkipA a s
  | .aluSkipB b => Sys2Proof.Machine.execAluSkipB b s

end Sys2Proof.Machine
end

