-- ==== Sys2Proof/Machine/Step.lean ====
section
/-! DEFINITION. One step of the run (R120) and the placing of an instruction where it fetches. -/

namespace Sys2Proof.Machine

/-- R120: one instruction, or the stop at the limit, which is checked before the fetch. "Only `Running` has a next step"
(R30): on a run that is over the answer is a fault that names how it ended. -/
def step (s : State) : Host.Outcome State Fault Refusal :=
  match s.status with
  | .running =>
    if s.cfg.limit ≤ s.instr then .next (reachLimit s)
    else
      match fetch s with
      | .done t => exec (decodeWord t.ir) t
      | .raised e t => .next (takeEvent e t)
  | .halted cause => .fault (.halted cause)
  | .limitReached => .fault .limitReached
  | .faulted f => .fault (.faulted f)

/-- The state with the instruction of a table number placed in the cell that PC names, which is where step fetches. It
stands for the load of a program that has that word there (R200; log entry 10). Nothing else changes; a number that is
no row's, or a PC outside memory, changes nothing (log entry 16). -/
def State.withFetchWord (s : State) (nbits w : Nat) : State :=
  match tableWord nbits w with
  | none => s
  | some word => placeWord s word

end Sys2Proof.Machine
end

