-- ==== Sys2Proof/Machine/Fsm.lean ====
section
/-! DEFINITION. The control unit as "an explicit finite-state machine with one state per tick" (spec/42_control_unit.md
R128), beside the step of R120 that runs a whole instruction. -/

namespace Sys2Proof.Machine

/-- R128: the states, under the rule's names. -/
inductive MicroState where
  | f1 | f2 | i1 | i2
  | xNop | xInc | xDec | xHalt
  | xPush1 | xPush2 | xPop1 | xPop2 | xPop3
  | xOp1 | xLoad2 | xStore2 | xAdd2 | xSub2 | xMul2 | xDiv2 | xCmp2 | xTest2 | xOut2
  | xIn | xBr
deriving DecidableEq, Repr

/-- R170: the condition of a branch; an opcode that is no branch has none. -/
def branchTaken (op : Opcode) (s : State) : Bool :=
  match op with
  | .jg => jgTaken s
  | .jz => jzTaken s
  | .jnz => jnzTaken s
  | .jmp => jmpTaken s
  | .nop | .inc | .dec | .halt | .push | .pop | .load | .store | .add | .sub | .mul | .div | .out | .input | .cmp
  | .test => false

/-- R128: the signals a state issues. X_BR looks at PS and at the opcode. -/
def microGroup (m : MicroState) (s : State) : Group :=
  match m with
  | .f1 => fetchT1
  | .f2 => fetchT2
  | .i1 => indirectT1
  | .i2 => indirectT2
  | .xNop => nopX1
  | .xInc => incX1
  | .xDec => decX1
  | .xHalt => haltX0
  | .xPush1 => pushX1
  | .xPush2 => pushX2
  | .xPop1 => popX1
  | .xPop2 => popX2
  | .xPop3 => popX3
  | .xOp1 => operandX1
  | .xLoad2 => loadX2
  | .xStore2 => storeX2
  | .xAdd2 => arithX2 .add
  | .xSub2 => arithX2 .sub
  | .xMul2 => arithX2 .mul
  | .xDiv2 => arithX2 .div
  | .xCmp2 => compareX2 .cmp
  | .xTest2 => compareX2 .test
  | .xOut2 => outX2
  | .xIn => inX1
  | .xBr => branchX1 (branchTaken s.ir.opcode s) s

/-- R124, R128: the first execute state of an opcode. -/
def executeState (op : Opcode) : MicroState :=
  match op with
  | .nop => .xNop
  | .inc => .xInc
  | .dec => .xDec
  | .halt => .xHalt
  | .push => .xPush1
  | .pop => .xPop1
  | .load | .store | .add | .sub | .mul | .div | .out | .cmp | .test => .xOp1
  | .input => .xIn
  | .jg | .jz | .jnz | .jmp => .xBr

/-- R128: the state after X_OP1; an opcode outside the operand class never comes there. -/
def operandState2 (op : Opcode) : Option MicroState :=
  match op with
  | .load => some .xLoad2
  | .store => some .xStore2
  | .add => some .xAdd2
  | .sub => some .xSub2
  | .mul => some .xMul2
  | .div => some .xDiv2
  | .cmp => some .xCmp2
  | .test => some .xTest2
  | .out => some .xOut2
  | .nop | .inc | .dec | .halt | .push | .pop | .input | .jg | .jz | .jnz | .jmp => none

/-- R128: the state after a tick; none after an instruction's last one. It looks at `IR.is_indirect` and `IR.opcode`
alone. -/
def nextMicroState (m : MicroState) (s : State) : Option MicroState :=
  match m with
  | .f1 => some .f2
  | .f2 => some (if s.ir.isIndirect then .i1 else executeState s.ir.opcode)
  | .i1 => some .i2
  | .i2 => some (executeState s.ir.opcode)
  | .xPush1 => some .xPush2
  | .xPop1 => some .xPop2
  | .xPop2 => some .xPop3
  | .xOp1 => operandState2 s.ir.opcode
  | .xNop | .xInc | .xDec | .xHalt | .xPush2 | .xPop3 | .xLoad2 | .xStore2 | .xAdd2 | .xSub2 | .xMul2 | .xDiv2
  | .xCmp2 | .xTest2 | .xOut2 | .xIn | .xBr => none

/-- What one tick answers: the next state of the control unit with the datapath's, or the state the instruction has
left. -/
inductive TickResult where
  | going (m : MicroState) (s : State)
  | finished (s : State)
deriving DecidableEq, Repr

/-- R128: one tick. "The flag latch and the increment of INSTR ride on the last execute state"; a signal that raises
ends the instruction (R120). -/
def microTick (m : MicroState) (s : State) : TickResult :=
  match runGroup (microGroup m s) s with
  | .raised e t => .finished (takeEvent e t)
  | .done t =>
    match nextMicroState m t with
    | some m' => .going m' t
    | none => .finished (retire t)

/-- At most `k` ticks from a state of the control unit; none where the instruction has not ended by then. -/
def runTicks : Nat → MicroState → State → Option State
  | 0, _, _ => none
  | k + 1, m, s =>
    match microTick m s with
    | .going m' t => runTicks k m' t
    | .finished t => some t

end Sys2Proof.Machine
end

