-- ==== Sys2Proof/Machine/HostView.lean ====
section
/-! DEFINITION. What the host sees (spec/60_exceptions.md R195, R197) and the run loop it drives (R120). -/

namespace Sys2Proof.Machine

/-- R197: "the observable result of a run is the triple (OUT_BUF, INSTR, TICK)". -/
structure HostResult where
  outBuf : List Int
  instr : Nat
  tick : Nat
deriving DecidableEq, Repr

/-- R126, R181, R196: the triple at each of the three clean endings, nothing for a fault, nothing while the run goes on. -/
def hostResult (s : State) : Option HostResult :=
  match s.status with
  | .halted _ | .limitReached => some ⟨s.outBuf, s.instr, s.tick⟩
  | .running | .faulted _ => none

/-- R195: the eleven traced values. `cell` is `MEM[Addr].value`, where Addr is in memory. -/
structure TraceLine where
  tick : Nat
  ac : Int
  pc : Int
  opcode : Opcode
  dr : Int
  sp : Int
  addr : Int
  toMem : Int
  n : Bool
  z : Bool
  cell : Option Int
deriving DecidableEq, Repr

/-- R195: the values of a trace line, from the state after a completed instruction. -/
def traceLine (s : State) : TraceLine :=
  { tick := s.tick, ac := s.ac, pc := s.pc, opcode := s.ir.opcode, dr := s.dr, sp := s.sp, addr := s.addr,
    toMem := s.toMem, n := s.ps.n, z := s.ps.z, cell := (memRead s s.addr).map fun w => w.value }

/-- R120: `while STATUS = Running: step`, for at most `k` steps. -/
def runFor : Nat → State → State
  | 0, s => s
  | k + 1, s =>
    match step s with
    | .next t => runFor k t
    | .fault _ => s
    | .refused _ => s

end Sys2Proof.Machine
end

