-- ==== Sys2Proof/Machine/Load.lean ====
section
/-! DEFINITION. Reset as construction with a program (spec/70_reset_and_hazards.md R200): the loader, which places the
words of an artifact and refuses a malformed one by name. -/

namespace Sys2Proof.Machine

/-- R200: the words in the artifact's order, so that "later entries for the same index overwrite"; the first malformed
one is the ConfigFault. -/
def placeProgram (memorySize : Nat) : List ArtifactWord → Memory → Except ConfigFault Memory
  | [], m => .ok m
  | w :: rest, m =>
    match decodeArtifactWord memorySize w with
    | .error e => .error e
    | .ok (i, word) => placeProgram memorySize rest (setCell i word m)

/-- R200: `reset(MS, INPUT, PROGRAM, LIMIT)`. The machine, or the refusal ConfigFault with which "no machine is built"
(D22). `State.reset` is the load of the empty program with the default parameters and no input. -/
def load (cfg : Config) (input : List Int) (program : List ArtifactWord) : Host.Outcome State Fault Refusal :=
  if cfg.memorySize = 0 then .refused (.configFault .memorySizeZero)
  else
    match placeProgram cfg.memorySize program [] with
    | .error e => .refused (.configFault e)
    | .ok m => .next { State.initial cfg input with mem := m }

end Sys2Proof.Machine
end

