-- ==== Sys2Proof/Safety.lean ====
section
/-! DEFINITION. What a sound state and a safe run are, in the terms the statements use (spec/95_test_vectors.md section
6, and the rules named below). -/

namespace Sys2Proof.Machine

/-- The invariant of the machine: MS ≥ 1 (D22), PC and SP in `0..MS-1` (R16, R17), memory in its canonical form and no
larger than MS cells (R40), the two flags never both true (R81), and INSTR no more than LIMIT (R120). -/
structure State.Inv (s : State) : Prop where
  size_pos : 1 ≤ s.cfg.memorySize
  pc_nonneg : 0 ≤ s.pc
  pc_lt : s.pc < s.cfg.memorySize
  sp_nonneg : 0 ≤ s.sp
  sp_lt : s.sp < s.cfg.memorySize
  mem_wf : Memory.wf s.mem
  mem_fits : Memory.fits s.cfg.memorySize s.mem
  alu_flags : ¬(s.alu.flags.n = true ∧ s.alu.flags.z = true)
  ps_flags : ¬(s.ps.n = true ∧ s.ps.z = true)
  instr_le : s.instr ≤ s.cfg.limit

/-- R211 and its bounds on TICK: `3 * INSTR <= TICK <= 7 * INSTR` while every instruction has completed, and
`TICK >= 2 * INSTR` at every end. -/
structure State.TickBounds (s : State) : Prop where
  completed : s.status = .running ∨ s.status = .limitReached → 3 * s.instr ≤ s.tick ∧ s.tick ≤ 7 * s.instr
  always : 2 * s.instr ≤ s.tick

/-- A run is safe while no fatal fault has ended it: "a claim about a program's result must show that no fault is
reached" (R181). -/
def State.notFaulted (s : State) : Bool :=
  match s.status with
  | .faulted _ => false
  | .running | .halted _ | .limitReached => true

/-- R126: the run has ended, and cleanly. -/
def State.endedCleanly (s : State) : Bool :=
  match s.status with
  | .halted _ | .limitReached => true
  | .running | .faulted _ => false

/-- R124, R127: the ticks of an opcode's execute phase when it completes. -/
def executeTicks (op : Opcode) : Nat :=
  match op with
  | .halt => 0
  | .nop | .inc | .dec | .input | .jg | .jz | .jnz | .jmp => 1
  | .push | .load | .store | .add | .sub | .mul | .div | .cmp | .test | .out => 2
  | .pop => 3

/-- R123, R127: the ticks of indirect resolution, "+2 ticks, only if the fetched word's `is_indirect` flag is set". -/
def indirectTicks (indirect : Bool) : Nat := if indirect then 2 else 0

/-! ### States that instructions of one shape leave

Each names every field that changes; every other field, all of memory among them, is as in `s`. -/

/-- What load, add, sub, mul, div, cmp and test leave, with operand `ea` and the value `m` read from cell `ea`: the new
AC and the new ALU outputs are given, PS takes the ALU's flags, and `l` is what the ALU records of its inputs. -/
def State.afterOperandRead (s : State) (op : Opcode) (v : Int) (ind : Bool) (ea m ac : Int) (alu : AluOutputs)
    (l : AluInputs) : State :=
  { s with
    ir := ⟨op, v, ind⟩, dr := m, addr := ea, ac := ac, alu := alu, aluInputs := l, ps := alu.flags
    tick := s.tick + indirectTicks ind + 2, instr := s.instr + 1 }

/-- What an instruction leaves whose execute tick X2 faults on the address `ea` before any other signal of X2 (R181,
R196): AC, PS and INSTR unchanged, X1's tick charged. -/
def State.afterOperandFault (s : State) (op : Opcode) (v : Int) (ind : Bool) (ea : Int) (l : AluInputs) : State :=
  { s with
    ir := ⟨op, v, ind⟩, dr := ea, addr := ea, alu := ⟨ea, flagsOf ea⟩, aluInputs := l
    tick := s.tick + indirectTicks ind + 1, status := .faulted (.addressFault ea) }

/-- What a branch with target `p` leaves (R170, R175). -/
def State.afterBranch (s : State) (op : Opcode) (v : Int) (ind : Bool) (p : Int) (taken : Bool) (l : AluInputs) :
    State :=
  let alu : AluOutputs :=
    if taken || s.cfg.branchAluAlways then ⟨p, flagsOf p⟩ else if ind then ⟨v, flagsOf v⟩ else s.alu
  { s with
    ir := ⟨op, v, ind⟩, dr := p, addr := if ind then v else s.addr, pc := if taken then wrap s p else s.pc
    alu := alu, aluInputs := l, ps := alu.flags, tick := s.tick + indirectTicks ind + 1, instr := s.instr + 1 }

/-- R206: the value whose flags reach PS when the word `w`, fetched in `s`, completes in `t`. -/
def lastValue (w : MachineWord) (s t : State) : Int :=
  let notDriven : Int := if w.isIndirect then w.value else s.pc + 1
  match w.opcode with
  | .nop | .input => notDriven
  | .inc | .dec | .pop | .load | .add | .sub | .mul | .div => t.ac
  | .push | .store => s.ac
  | .cmp => s.ac - t.dr
  | .test => bitAnd s.ac t.dr
  | .out | .jmp => t.dr
  | .jg => if jgTaken s || s.cfg.branchAluAlways then t.dr else notDriven
  | .jz => if jzTaken s || s.cfg.branchAluAlways then t.dr else notDriven
  | .jnz => if jnzTaken s || s.cfg.branchAluAlways then t.dr else notDriven
  | .halt => t.dr

end Sys2Proof.Machine
end

