-- ==== Sys2Proof/Certificates/Slice0/Obligations.lean ====
section
/-! DEFINITION. The statements for the provers. In every one, `l` is what the ALU has recorded of its inputs (R25), of
which nothing is claimed: the recording is the model's choice (log entry 5). -/

open Sys2Proof Sys2Proof.Machine

/-! ### Encoding and loading -/

/-- Decode and encode agree, with every operand at every value (R60 to R64, R68; the ALU rows: R82): decoding the
encoding of an instruction gives it back; a code decodes to an instruction exactly when the two have one encoding, but
for operands that an ALU operation ignores; the artifact's object for a word in a cell is placed as that word in that
cell; and an object that is placed is the one of what it places, but for an absent value, which is 0 by the spec's
decision D6 (log entry 6). -/
def Obligations.DecodeEncodeRoundTrip : Prop :=
  (∀ i : Instr, decode (encode i) = .ok i) ∧
    (∀ (c : Code) (i : Instr), decode c = .ok i ↔ normalCode c = encode i) ∧
    (∀ (memorySize k : Nat) (w : MachineWord), k < memorySize →
      decodeArtifactWord memorySize (encodeArtifactWord k w) = .ok (k, w)) ∧
    ∀ (memorySize k : Nat) (a : ArtifactWord) (w : MachineWord), decodeArtifactWord memorySize a = .ok (k, w) →
      k < memorySize ∧
        (a = encodeArtifactWord k w ∨ (w.value = 0 ∧ a = { encodeArtifactWord k w with value := .absent }))

/-- Every machine word decodes (R68); a command to the ALU decodes exactly when it has the operands its operation uses,
and is otherwise refused as a missing operand of that operation; what decodes is the encoding of its instruction, but
for operands the operation ignores (R82). -/
def Obligations.DecodeAcceptsExactlyWellFormed : Prop :=
  (∀ w : MachineWord, ∃ i, decode (.word w) = .ok i ∧ encode i = .word w) ∧
    ∀ c : AluCommand,
      (c.wellFormed = true → ∃ i, decode (.command c) = .ok i ∧ encode i = normalCode (.command c)) ∧
        (c.wellFormed = false → decode (.command c) = .error (.missingOperand c.op))

/-- Words written out from the opcode table's `encoding` column decode to the instructions they stand for. The last two
clauses are of the table's `match` numbers, which carry no meaning (R72), and are the model's choice (DESIGN CHOICE, log
entry 3): an ordinal reads as the word of that opcode with value 0, direct, and 20 to 31 are refused. -/
def Obligations.SampleWordsDecode : Prop :=
  decode (.word ⟨.nop, 77, false⟩) = .ok (.nop 77 false) ∧
    decode (.word ⟨.push, 0, false⟩) = .ok (.push 0 false) ∧
    decode (.word ⟨.load, 4, true⟩) = .ok (.load 4 true) ∧
    decode (.word ⟨.input, 55, false⟩) = .ok (.input 55 false) ∧
    decode (.word ⟨.jz, -1, false⟩) = .ok (.jz (-1) false) ∧
    decode (.command ⟨.div, some (-7), some 2⟩) = .ok (.aluDiv (-7) 2) ∧
    decodeTableWord 8 19 = some (.jmp 0 false) ∧ decodeTableWord 8 20 = none

/-- The loader builds a machine exactly where the memory size and every word of the artifact pass R200's requirements;
otherwise it refuses with a ConfigFault. The requirements and the refusal are the spec's decisions D22 and, for absent and
string values, D6 (log entry 6). -/
def Obligations.LoadAcceptsExactlyWellFormed : Prop :=
  ∀ (cfg : Config) (input : List Int) (program : List ArtifactWord),
    if cfg.wellFormed = true ∧ ∀ w ∈ program, w.wellFormed cfg.memorySize = true then
      ∃ s, load cfg input program = .next s
    else ∃ e, load cfg input program = .refused (.configFault e)

/-- What the loader leaves: every field but memory as at reset; in the cell of an artifact word that no later word of
the same index follows, that word, an absent value being 0; in every cell that no word names, `(nop, 0, false)`. The 0 of
an absent value and the value and flag of an initial cell are the spec's decision D6; of the reset values, ALU.result and
the recorded ALU inputs are D4, TICK and INSTR are D5 (log entry 6). -/
def Obligations.LoadPlacesLastWord : Prop :=
  ∀ (cfg : Config) (input : List Int) (program : List ArtifactWord) (s : State),
    load cfg input program = .next s →
      { s with mem := [] } = State.initial cfg input ∧
        (∀ (before after : List ArtifactWord) (w : ArtifactWord), program = before ++ w :: after →
          (∀ x ∈ after, x.index ≠ w.index) →
            ∃ op, opcodeTag op = w.opcode ∧
              (∀ v, w.value = .int v → readCell s.mem w.index.toNat = ⟨op, v, w.isIndirect⟩) ∧
              (w.value = .absent → readCell s.mem w.index.toNat = ⟨op, 0, w.isIndirect⟩)) ∧
        ∀ i : Nat, (∀ w ∈ program, w.index ≠ (i : Int)) → readCell s.mem i = ⟨.nop, 0, false⟩

/-- Every machine the loader builds satisfies the invariant and the bounds on TICK (R200; that it requires MS ≥ 1 and
indices of cells is the spec's decision D22, log entry 6). -/
def Obligations.LoadedStateSound : Prop :=
  ∀ (cfg : Config) (input : List Int) (program : List ArtifactWord) (s : State),
    load cfg input program = .next s → s.Inv ∧ s.TickBounds

/-! ### Reset -/

/-- R34: what reset leaves in every piece of state, for every setting of the parameters and every input. The values of
ALU.result, TICK, INSTR and of the recorded ALU inputs, and the value and flag of an initial cell, are the spec's own
choices (D4, D5, D6). -/
def Obligations.ResetLeavesStatedValues : Prop :=
  ∀ (cfg : Config) (input : List Int),
    let s := State.initial cfg input
    (∀ i, readCell s.mem i = ⟨.nop, 0, false⟩) ∧ s.pc = 0 ∧ s.sp = 0 ∧ s.ac = 0 ∧ s.dr = 0 ∧ s.addr = 0 ∧
      s.toMem = 0 ∧ s.ir = ⟨.nop, 0, false⟩ ∧ s.ps = ⟨false, false⟩ ∧ s.alu = ⟨0, ⟨false, false⟩⟩ ∧
      s.aluInputs = ⟨none, none, none⟩ ∧ s.inBuf = input ∧ s.outBuf = [] ∧ s.tick = 0 ∧ s.instr = 0 ∧
      s.status = .running ∧ s.diag = []

/-- The model's choice (log entry 2), not a rule of the spec: State.reset is that state with MS = 200 and both switches
true, the spec's defaults, and with no input and LIMIT = 1000, which the spec leaves to the run. -/
def Obligations.ResetParametersOfTheModel : Prop :=
  State.reset = State.initial ⟨200, 1000, true, true⟩ [] ∧ load .default [] [] = .next State.reset

/-! ### The ALU -/

/-- R84 to R90, R94, R95: the operations that store their value: the new result and its flags, and nothing else. -/
def Obligations.AluStoringOperations : Prop :=
  ∀ (a b : Int) (s : State),
    (∃ l, exec (.aluIncA a) s = .next { s with alu := ⟨a + 1, flagsOf (a + 1)⟩, aluInputs := l }) ∧
      (∃ l, exec (.aluDecA a) s = .next { s with alu := ⟨a - 1, flagsOf (a - 1)⟩, aluInputs := l }) ∧
      (∃ l, exec (.aluIncB b) s = .next { s with alu := ⟨b + 1, flagsOf (b + 1)⟩, aluInputs := l }) ∧
      (∃ l, exec (.aluDecB b) s = .next { s with alu := ⟨b - 1, flagsOf (b - 1)⟩, aluInputs := l }) ∧
      (∃ l, exec (.aluAdd a b) s = .next { s with alu := ⟨a + b, flagsOf (a + b)⟩, aluInputs := l }) ∧
      (∃ l, exec (.aluSub a b) s = .next { s with alu := ⟨a - b, flagsOf (a - b)⟩, aluInputs := l }) ∧
      (∃ l, exec (.aluMul a b) s = .next { s with alu := ⟨a * b, flagsOf (a * b)⟩, aluInputs := l }) ∧
      (∃ l, exec (.aluSkipA a) s = .next { s with alu := ⟨a, flagsOf a⟩, aluInputs := l }) ∧
      (∃ l, exec (.aluSkipB b) s = .next { s with alu := ⟨b, flagsOf b⟩, aluInputs := l })

/-- R91: DIV leaves the quotient rounded toward minus infinity, the greatest integer `q` with `q * b ≤ a` for a positive
`b` and with `a ≤ q * b` for a negative one; by zero it leaves 0, N false, Z true, and a DivByZero diagnostic, and never
raises. -/
def Obligations.AluDivision : Prop :=
  ∀ (a b : Int) (s : State),
    (b ≠ 0 → ∃ (q : Int) (l : AluInputs),
      exec (.aluDiv a b) s = .next { s with alu := ⟨q, flagsOf q⟩, aluInputs := l } ∧
        (0 < b → q * b ≤ a ∧ a < (q + 1) * b) ∧ (b < 0 → a ≤ q * b ∧ (q + 1) * b < a)) ∧
      ∃ l, exec (.aluDiv a 0) s =
        .next { s with alu := ⟨0, ⟨false, true⟩⟩, aluInputs := l, diag := s.diag ++ [.divByZero] }

/-- R92, R93: CMP and TEST leave ALU.result as it was and set the flags: CMP those of the order of `a` and `b`, TEST
those of `a AND b`, with N true iff both are negative. The AND of negative integers is the spec's decision D3 (log entry
6). -/
def Obligations.AluComparingOperations : Prop :=
  ∀ (a b : Int) (s : State),
    (∃ l, exec (.aluCmp a b) s =
      .next { s with alu := ⟨s.alu.result, ⟨decide (a < b), decide (a = b)⟩⟩, aluInputs := l }) ∧
      ∃ l, exec (.aluTest a b) s =
        .next { s with
          alu := ⟨s.alu.result, ⟨decide (a < 0 ∧ b < 0), decide (bitAnd a b = 0)⟩⟩, aluInputs := l }

/-- R6, R81: what the machine is built from: the floor modulus, the floor of a quotient, the AND of infinite
two's-complement forms, bit `k` of an integer `x` being `x / 2 ^ k % 2` (the spec's choices D1, D2, D3), and the flags of
a value. -/
def Obligations.IntegerOperations : Prop :=
  (∀ (s : State) (a : Int), 1 ≤ s.cfg.memorySize →
    0 ≤ wrap s a ∧ wrap s a < s.cfg.memorySize ∧ (s.cfg.memorySize : Int) ∣ a - wrap s a) ∧
    (∀ a b : Int, 0 < b → floorDiv a b * b ≤ a ∧ a < (floorDiv a b + 1) * b) ∧
    (∀ a b : Int, b < 0 → a ≤ floorDiv a b * b ∧ (floorDiv a b + 1) * b < a) ∧
    (∀ (a b : Int) (k : Nat), bitAnd a b / 2 ^ k % 2 = 1 ↔ a / 2 ^ k % 2 = 1 ∧ b / 2 ^ k % 2 = 1) ∧
    ∀ v : Int, ((flagsOf v).n = true ↔ v < 0) ∧ ((flagsOf v).z = true ↔ v = 0)

/-- R99: the six testable properties of the ALU alone, which the spec derives from R80 to R95. -/
def Obligations.AluTestableProperties : Prop :=
  (∀ (op : AluOp) (a b : Option Int) (s t : State), aluCompute op a b s = .done t →
    ¬(t.alu.flags.n = true ∧ t.alu.flags.z = true)) ∧
    (∀ (a b : Int) (s : State), ∃ t u, exec (.aluCmp a b) s = .next t ∧ exec (.aluSub a b) s = .next u ∧
      t.alu.flags = u.alu.flags ∧ t.alu.result = s.alu.result ∧ u.alu.result = a - b) ∧
    (∀ (a : Int) (s : State), ∃ t u, exec (.aluSkipA a) s = .next t ∧ exec (.aluSkipB a) s = .next u ∧
      t.alu = u.alu) ∧
    (∀ (a b : Int) (s : State), b ≠ 0 → ∃ t, exec (.aluDiv a b) s = .next t ∧
      (0 < b → t.alu.result * b ≤ a ∧ a < (t.alu.result + 1) * b) ∧
      (b < 0 → a ≤ t.alu.result * b ∧ (t.alu.result + 1) * b < a)) ∧
    (∀ (a : Int) (s : State), ∃ t, exec (.aluDiv a 0) s = .next t ∧ t.alu = ⟨0, ⟨false, true⟩⟩) ∧
    ∀ (a : Int) (s : State), ∃ t u, exec (.aluIncA a) s = .next t ∧ exec (.aluDecA t.alu.result) t = .next u ∧
      u.alu.result = a

/-- R82, R109, R110: where every operand that its operation uses is selected, whatever is selected for the other,
execute_alu_op leaves the state that the operation itself leaves on the selected registers (the statements about the ALU
say which state that is): AC or the packed flags on the left; DR, PC or SP on the right. Otherwise it is the ConfigFault
of a missing operand, with nothing changed. -/
def Obligations.MissingAluOperandIsConfigFault : Prop :=
  (∀ (op : AluOp) (left : Option LeftSelector) (right : Option RightSelector) (s : State),
    if (op.usesA = true → left.isSome = true) ∧ (op.usesB = true → right.isSome = true) then
      ∃ (i : Instr) (t : State) (l : AluInputs),
        decode (.command ⟨op, left.map (leftOperand s), right.map (rightOperand s)⟩) = .ok i ∧
          exec i s = .next t ∧ runSignal (.executeAluOp op left right) s = .done { t with aluInputs := l }
    else runSignal (.executeAluOp op left right) s = .raised (.fatal (.configFault (.missingOperand op))) s) ∧
    ∀ s : State,
      leftOperand s .fromAc = s.ac ∧
        leftOperand s .fromPs = (if s.ps.n then 100 else 0) + (if s.ps.z then 10 else 0) ∧
        rightOperand s .fromDr = s.dr ∧ rightOperand s .fromPc = s.pc ∧ rightOperand s .fromSp = s.sp

/-! ### The datapath's signals -/

/-- R101, R103, R104, R106, R108, R111: the signals that copy the ALU's outputs, the input buffer or AC; and
latch_to_mem, which the spec adds (R107) by its decision D9. The floor modulus of latch_pc and latch_sp (R6) is D2 (log
entry 6). -/
def Obligations.LatchAndOutputSignals : Prop :=
  ∀ s : State,
    runSignal .latchAddr s = .done { s with addr := s.alu.result } ∧
      runSignal .latchPc s = .done { s with pc := s.alu.result % s.cfg.memorySize } ∧
      runSignal .latchSp s = .done { s with sp := s.alu.result % s.cfg.memorySize } ∧
      runSignal (.latchAc .fromAlu) s = .done { s with ac := s.alu.result } ∧
      (s.inBuf = [] → runSignal (.latchAc .fromInput) s = .raised (.halt .inputExhausted) s) ∧
      (∀ c rest, s.inBuf = c :: rest →
        runSignal (.latchAc .fromInput) s = .done { s with ac := c, inBuf := rest }) ∧
      runSignal .latchToMem s = .done { s with toMem := s.alu.result } ∧
      runSignal .latchPsFlags s = .done { s with ps := s.alu.flags } ∧
      (s.dr = 1 → runSignal .output s = .done { s with outBuf := s.outBuf ++ [s.ac] }) ∧
      (s.dr ≠ 1 → runSignal .output s = .done s)

/-- R42, R102, R105: latch_dr copies the `value` field and latch_ir the whole word of the cell at Addr exactly when
`0 ≤ Addr < MS`; every other Addr is an AddressFault that changes nothing. That Addr = MS is one is the spec's decision
D8 (log entry 6). -/
def Obligations.ReadingSignalsCheckAddress : Prop :=
  ∀ s : State,
    (0 ≤ s.addr ∧ s.addr < s.cfg.memorySize →
      runSignal .latchDr s = .done { s with dr := (readCell s.mem s.addr.toNat).value } ∧
        runSignal .latchIr s = .done { s with ir := readCell s.mem s.addr.toNat }) ∧
      (s.addr < 0 ∨ (s.cfg.memorySize : Int) ≤ s.addr →
        runSignal .latchDr s = .raised (.fatal (.addressFault s.addr)) s ∧
          runSignal .latchIr s = .raised (.fatal (.addressFault s.addr)) s)

/-- R43, R112 (the spec's choice D7): write_memory replaces one cell by `(nop, ToMem, false)` and no other: cell Addr,
or cell `Addr + MS` for an Addr from -MS to -1; every other Addr is an AddressFault that changes nothing. -/
def Obligations.WriteMemoryReplacesOneCell : Prop :=
  ∀ s : State,
    (-(s.cfg.memorySize : Int) ≤ s.addr ∧ s.addr < s.cfg.memorySize →
      ∃ m : Memory, runSignal .writeMemory s = .done { s with mem := m } ∧
        ∀ j : Nat, readCell m j =
          if (j : Int) = (if s.addr < 0 then s.addr + s.cfg.memorySize else s.addr) then ⟨.nop, s.toMem, false⟩
          else readCell s.mem j) ∧
      (s.addr < -(s.cfg.memorySize : Int) ∨ (s.cfg.memorySize : Int) ≤ s.addr →
        runSignal .writeMemory s = .raised (.fatal (.addressFault s.addr)) s)

/-- R100: "when it raises it has changed nothing". -/
def Obligations.RaisingSignalChangesNothing : Prop :=
  ∀ (g : Signal) (s t : State) (e : Event), runSignal g s = .raised e t → t = s

/-- R110: FROM_PS packs N*100 + Z*10 into the left operand. -/
def Obligations.FromPsPacksFlags : Prop :=
  ∀ s : State, ∃ l,
    runSignal (.executeAluOp .skipA (some .fromPs) none) s =
      .done { s with
        alu := ⟨(if s.ps.n then 100 else 0) + (if s.ps.z then 10 else 0),
          flagsOf ((if s.ps.n then 100 else 0) + (if s.ps.z then 10 else 0))⟩
        aluInputs := l }

/-! ### The operand of an instruction -/

/-- R42, R63, R67: the two functions the statements below name an operand by. A direct operand is the `value` field; an
indirect one is the `value` of the cell that the field points at, whatever that cell's own opcode and `is_indirect`; a
read is admitted exactly from `0..MS-1` (D8). -/
def Obligations.OperandAddresses : Prop :=
  ∀ (s : State) (a p : Int) (w : MachineWord),
    (memRead s a = some w ↔ 0 ≤ a ∧ a < s.cfg.memorySize ∧ readCell s.mem a.toNat = w) ∧
      (memRead s a = none ↔ a < 0 ∨ (s.cfg.memorySize : Int) ≤ a) ∧
      (operandOf s a false = some p ↔ p = a) ∧
      (operandOf s a true = some p ↔
        0 ≤ a ∧ a < s.cfg.memorySize ∧ (readCell s.mem a.toNat).value = p) ∧
      (operandOf s a true = none ↔ a < 0 ∨ (s.cfg.memorySize : Int) ≤ a)

/-! ### The instructions

exec is R120's step after the fetch: indirect resolution, execute, flag latch, count. `p` or `ea` is the operand, direct
or through one pointer; an operand that does not resolve is `IndirectOperandFault`. Each conclusion names every field
that changes, so every other field, all of memory among them, is unchanged. -/

/-- R140: nop, with the flags of the last ALU computation before it. That an indirect nop resolves its operand (R123,
R146) is the spec's decision D15 (log entry 6). -/
def Obligations.NopResult : Prop :=
  ∀ (v : Int) (ind : Bool) (p : Int) (s : State), operandOf s v ind = some p → ∃ l,
    exec (.nop v ind) s =
      .next { s with
        ir := ⟨.nop, v, ind⟩, dr := p, addr := if ind then v else s.addr
        alu := if ind then ⟨v, flagsOf v⟩ else s.alu, aluInputs := l, ps := if ind then flagsOf v else s.alu.flags
        tick := s.tick + indirectTicks ind + 1, instr := s.instr + 1 }

/-- R141, R142: inc and dec. That an indirect one resolves its operand (R123, R146) is the spec's decision D15 (log
entry 6). -/
def Obligations.IncDecResult : Prop :=
  ∀ (v : Int) (ind : Bool) (p : Int) (s : State), operandOf s v ind = some p →
    (∃ l, exec (.inc v ind) s =
      .next { s with
        ir := ⟨.inc, v, ind⟩, dr := p, addr := if ind then v else s.addr, ac := s.ac + 1
        alu := ⟨s.ac + 1, flagsOf (s.ac + 1)⟩, aluInputs := l, ps := flagsOf (s.ac + 1)
        tick := s.tick + indirectTicks ind + 1, instr := s.instr + 1 }) ∧
      ∃ l, exec (.dec v ind) s =
        .next { s with
          ir := ⟨.dec, v, ind⟩, dr := p, addr := if ind then v else s.addr, ac := s.ac - 1
          alu := ⟨s.ac - 1, flagsOf (s.ac - 1)⟩, aluInputs := l, ps := flagsOf (s.ac - 1)
          tick := s.tick + indirectTicks ind + 1, instr := s.instr + 1 }

/-- R143, R183: halt raises the halt condition with no tick and no flag latch. That it latches no flag (R120) is the
spec's decision D13, and that an indirect one resolves its operand first (R123, R146) is D15 (log entry 6). -/
def Obligations.HaltResult : Prop :=
  ∀ (v : Int) (ind : Bool) (p : Int) (s : State), operandOf s v ind = some p → ∃ l,
    exec (.halt v ind) s =
      .next { s with
        ir := ⟨.halt, v, ind⟩, dr := p, addr := if ind then v else s.addr
        alu := if ind then ⟨v, flagsOf v⟩ else s.alu, aluInputs := l, tick := s.tick + indirectTicks ind
        status := .halted .haltInstr, instr := if s.cfg.countHalting then s.instr + 1 else s.instr }

/-- R144: push, from any SP in `0..MS-1`, 0 among them: SP one lower mod MS, Addr one lower unreduced, and
`(nop, AC, false)` in the cell that the new SP names and in no other. The cell that Addr = -1 names is the spec's decision
D7, the path through ToMem is D9, and that an indirect push resolves its operand first (R123, R146) is D15 (log entry
6). -/
def Obligations.PushResult : Prop :=
  ∀ (v : Int) (ind : Bool) (p : Int) (s : State), operandOf s v ind = some p → 0 ≤ s.sp → s.sp < s.cfg.memorySize →
    ∃ (l : AluInputs) (m : Memory),
      exec (.push v ind) s =
        .next { s with
          ir := ⟨.push, v, ind⟩, dr := p, addr := s.sp - 1, sp := (s.sp - 1) % s.cfg.memorySize, toMem := s.ac
          mem := m, alu := ⟨s.ac, flagsOf s.ac⟩, aluInputs := l, ps := flagsOf s.ac
          tick := s.tick + indirectTicks ind + 2, instr := s.instr + 1 } ∧
        ∀ j : Nat, readCell m j =
          if (j : Int) = (s.sp - 1) % s.cfg.memorySize then ⟨.nop, s.ac, false⟩ else readCell s.mem j

/-- R145: pop, from any SP in `0..MS-1`: the `value` of the cell at SP into DR and AC, SP one higher mod MS.
That an indirect pop resolves its operand first (R123, R146) is the spec's decision D15 (log entry 6). -/
def Obligations.PopResult : Prop :=
  ∀ (v : Int) (ind : Bool) (p : Int) (s : State), operandOf s v ind = some p → 0 ≤ s.sp → s.sp < s.cfg.memorySize →
    ∃ l,
      let x := (readCell s.mem s.sp.toNat).value
      exec (.pop v ind) s =
        .next { s with
          ir := ⟨.pop, v, ind⟩, dr := x, addr := s.sp, sp := (s.sp + 1) % s.cfg.memorySize, ac := x
          alu := ⟨x, flagsOf x⟩, aluInputs := l, ps := flagsOf x
          tick := s.tick + indirectTicks ind + 3, instr := s.instr + 1 }

/-- R150, R151 (with D10): load, and its fault in X2. -/
def Obligations.LoadResult : Prop :=
  ∀ (v : Int) (ind : Bool) (ea : Int) (s : State), operandOf s v ind = some ea →
    (∀ w, memRead s ea = some w → ∃ l,
      exec (.load v ind) s =
        .next (s.afterOperandRead .load v ind ea w.value w.value ⟨w.value, flagsOf w.value⟩ l)) ∧
      (memRead s ea = none → ∃ l, exec (.load v ind) s = .next (s.afterOperandFault .load v ind ea l))

/-- R152: store: `(nop, AC, false)` in the cell the effective address names, counted from the end of memory for an
address from -MS to -1, and in no other; at every other address its fault in X2, which comes after ToMem is latched.
The addresses admitted (R43) are the spec's decision D7, the path through ToMem is D9 (log entry 6). -/
def Obligations.StoreResult : Prop :=
  ∀ (v : Int) (ind : Bool) (ea : Int) (s : State), operandOf s v ind = some ea →
    (-(s.cfg.memorySize : Int) ≤ ea ∧ ea < s.cfg.memorySize → ∃ (l : AluInputs) (m : Memory),
      exec (.store v ind) s =
        .next { s with
          ir := ⟨.store, v, ind⟩, dr := ea, addr := ea, toMem := s.ac, mem := m, alu := ⟨s.ac, flagsOf s.ac⟩
          aluInputs := l, ps := flagsOf s.ac, tick := s.tick + indirectTicks ind + 2, instr := s.instr + 1 } ∧
        ∀ j : Nat, readCell m j =
          if (j : Int) = (if ea < 0 then ea + s.cfg.memorySize else ea) then ⟨.nop, s.ac, false⟩
          else readCell s.mem j) ∧
      (ea < -(s.cfg.memorySize : Int) ∨ (s.cfg.memorySize : Int) ≤ ea → ∃ l,
        exec (.store v ind) s =
          .next { s.afterOperandFault .store v ind ea l with toMem := s.ac, alu := ⟨s.ac, flagsOf s.ac⟩ })

/-- R153, R154, R155: add, sub and mul, exact, and their fault in X2. That the operand is read, and so faults, in X2 is
the spec's decision D10 (log entry 6). -/
def Obligations.AddSubMulResult : Prop :=
  ∀ (v : Int) (ind : Bool) (ea : Int) (s : State), operandOf s v ind = some ea →
    (∀ w, memRead s ea = some w →
      (∃ l, exec (.add v ind) s = .next (s.afterOperandRead .add v ind ea w.value (s.ac + w.value)
        ⟨s.ac + w.value, flagsOf (s.ac + w.value)⟩ l)) ∧
        (∃ l, exec (.sub v ind) s = .next (s.afterOperandRead .sub v ind ea w.value (s.ac - w.value)
          ⟨s.ac - w.value, flagsOf (s.ac - w.value)⟩ l)) ∧
        ∃ l, exec (.mul v ind) s = .next (s.afterOperandRead .mul v ind ea w.value (s.ac * w.value)
          ⟨s.ac * w.value, flagsOf (s.ac * w.value)⟩ l)) ∧
      (memRead s ea = none →
        (∃ l, exec (.add v ind) s = .next (s.afterOperandFault .add v ind ea l)) ∧
          (∃ l, exec (.sub v ind) s = .next (s.afterOperandFault .sub v ind ea l)) ∧
          ∃ l, exec (.mul v ind) s = .next (s.afterOperandFault .mul v ind ea l))

/-- R156: div: the floor quotient; by zero AC becomes 0 with a DivByZero diagnostic and the instruction completes; and
its fault in X2, before the ALU divides. That the operand is read, and so faults, in X2 is the spec's decision D10 (log
entry 6); that the fault comes before the division is R187's, which the spec derives. -/
def Obligations.DivResult : Prop :=
  ∀ (v : Int) (ind : Bool) (ea : Int) (s : State), operandOf s v ind = some ea →
    (∀ w, memRead s ea = some w → w.value ≠ 0 → ∃ l,
      exec (.div v ind) s = .next (s.afterOperandRead .div v ind ea w.value (floorDiv s.ac w.value)
        ⟨floorDiv s.ac w.value, flagsOf (floorDiv s.ac w.value)⟩ l)) ∧
      (∀ w, memRead s ea = some w → w.value = 0 → ∃ l,
        exec (.div v ind) s =
          .next { s.afterOperandRead .div v ind ea 0 0 ⟨0, ⟨false, true⟩⟩ l with
            diag := s.diag ++ [.divByZero] }) ∧
      (memRead s ea = none → ∃ l, exec (.div v ind) s = .next (s.afterOperandFault .div v ind ea l))

/-- R157, R158: cmp and test latch no destination: AC as it was, ALU.result left at the operand address, the flags of
the order (cmp) and of the AND (test) in PS; and their fault in X2. That the operand is read, and so faults, in X2 is the
spec's decision D10, the AND of negative integers is D3 (log entry 6). -/
def Obligations.CmpTestResult : Prop :=
  ∀ (v : Int) (ind : Bool) (ea : Int) (s : State), operandOf s v ind = some ea →
    (∀ w, memRead s ea = some w →
      (∃ l, exec (.cmp v ind) s = .next (s.afterOperandRead .cmp v ind ea w.value s.ac
        ⟨ea, ⟨decide (s.ac < w.value), decide (s.ac = w.value)⟩⟩ l)) ∧
        ∃ l, exec (.test v ind) s = .next (s.afterOperandRead .test v ind ea w.value s.ac
          ⟨ea, ⟨decide (s.ac < 0 ∧ w.value < 0), decide (bitAnd s.ac w.value = 0)⟩⟩ l)) ∧
      (memRead s ea = none →
        (∃ l, exec (.cmp v ind) s = .next (s.afterOperandFault .cmp v ind ea l)) ∧
          ∃ l, exec (.test v ind) s = .next (s.afterOperandFault .test v ind ea l))

/-- R159, R192: out appends AC to OUT_BUF when the operand is port 1; any other port is a silent no-op. -/
def Obligations.OutResult : Prop :=
  ∀ (v : Int) (ind : Bool) (p : Int) (s : State), operandOf s v ind = some p → ∃ l,
    exec (.out v ind) s =
      .next { s with
        ir := ⟨.out, v, ind⟩, dr := p, addr := p, outBuf := if p = 1 then s.outBuf ++ [s.ac] else s.outBuf
        alu := ⟨p, flagsOf p⟩, aluInputs := l, ps := flagsOf p
        tick := s.tick + indirectTicks ind + 2, instr := s.instr + 1 }

/-- R106, R160: in takes the head of IN_BUF into AC and makes no ALU computation; on an empty buffer it raises the
halt condition, with no tick and no flag latch. That a starved in is charged no tick is the spec's decision D12, that
it latches no flag is D13, and that an indirect in resolves its operand first (R123, R146) is D15 (log entry 6). -/
def Obligations.InResult : Prop :=
  ∀ (v : Int) (ind : Bool) (p : Int) (s : State), operandOf s v ind = some p →
    (∀ c rest, s.inBuf = c :: rest → ∃ l,
      exec (.input v ind) s =
        .next { s with
          ir := ⟨.input, v, ind⟩, dr := p, addr := if ind then v else s.addr, ac := c, inBuf := rest
          alu := if ind then ⟨v, flagsOf v⟩ else s.alu, aluInputs := l
          ps := if ind then flagsOf v else s.alu.flags
          tick := s.tick + indirectTicks ind + 1, instr := s.instr + 1 }) ∧
      (s.inBuf = [] → ∃ l,
        exec (.input v ind) s =
          .next { s with
            ir := ⟨.input, v, ind⟩, dr := p, addr := if ind then v else s.addr
            alu := if ind then ⟨v, flagsOf v⟩ else s.alu, aluInputs := l, tick := s.tick + indirectTicks ind
            status := .halted .inputExhausted, instr := if s.cfg.countHalting then s.instr + 1 else s.instr })

/-- R170 to R174: the branches: taken iff `!N` (jg), `Z` (jz), `!Z` (jnz) of PS, or always (jmp); the target reduced
mod MS; one tick either way; the ALU driven if taken or BRANCH_ALU_ALWAYS. What a branch leaves in PS is R175's table,
which the spec derives; that the ALU of a branch not taken is driven or not by that parameter is its decision D11 (log
entry 6). -/
def Obligations.BranchResult : Prop :=
  ∀ (v : Int) (ind : Bool) (p : Int) (s : State), operandOf s v ind = some p →
    (∃ l, exec (.jg v ind) s = .next (s.afterBranch .jg v ind p (!s.ps.n) l)) ∧
      (∃ l, exec (.jz v ind) s = .next (s.afterBranch .jz v ind p s.ps.z l)) ∧
      (∃ l, exec (.jnz v ind) s = .next (s.afterBranch .jnz v ind p (!s.ps.z) l)) ∧
      ∃ l, exec (.jmp v ind) s = .next (s.afterBranch .jmp v ind p true l)

/-- R123, R146, R181 (with D15, D16): for every opcode, an indirect word whose `value` names no cell takes the
AddressFault of indirect resolution: Addr holds the bad pointer, DR the word's `value`, one tick is charged, and AC,
SP, ToMem, PS, PC, INSTR, memory and both buffers are as they were. -/
def Obligations.IndirectOperandFault : Prop :=
  ∀ (w : MachineWord) (s : State), operandOf s w.value w.isIndirect = none → ∃ l,
    exec (decodeWord w) s =
      .next { s with
        ir := w, dr := w.value, addr := w.value, alu := ⟨w.value, flagsOf w.value⟩, aluInputs := l
        tick := s.tick + 1, status := .faulted (.addressFault w.value) }

/-- R145, the source's property, which the spec derives for its rules (with D7, D9; log entry 6): two steps, a push and
the pop in the next cell, either of them indirect, restore AC and SP, change no cell but `(SP - 1) mod MS`, and leave
AC's value there. The push must not overwrite the pop: its cell is not the pop's. -/
def Obligations.PushThenPopRestores : Prop :=
  ∀ (v v' p p' : Int) (ind ind' : Bool) (s : State), s.status = .running → s.instr + 1 < s.cfg.limit →
    0 ≤ s.sp → s.sp < s.cfg.memorySize →
    memRead s s.pc = some ⟨.push, v, ind⟩ → operandOf s v ind = some p →
    memRead s ((s.pc + 1) % s.cfg.memorySize) = some ⟨.pop, v', ind'⟩ → operandOf s v' ind' = some p' →
    (s.pc + 1) % s.cfg.memorySize ≠ (s.sp - 1) % s.cfg.memorySize →
      ∃ t u : State, step s = .next t ∧ step t = .next u ∧ u.status = .running ∧ u.ac = s.ac ∧ u.sp = s.sp ∧
        ∀ j : Nat, readCell u.mem j =
          if (j : Int) = (s.sp - 1) % s.cfg.memorySize then ⟨.nop, s.ac, false⟩ else readCell s.mem j

/-- R157, R171, R172, R173 (with C2, D10; log entry 6): two steps, a cmp that reads its operand `m` and the branch in
the next cell, either of them indirect: the cmp leaves AC and memory as they were and the operand in DR; then jg branches
iff AC ≥ m, equality included, jz iff AC = m, jnz iff AC ≠ m, and a branch not taken goes on to the cell after it. -/
def Obligations.CmpThenBranch : Prop :=
  ∀ (v ea target p : Int) (ind ind' : Bool) (m : MachineWord) (s : State),
    s.status = .running → s.instr + 1 < s.cfg.limit →
    memRead s s.pc = some ⟨.cmp, v, ind⟩ → operandOf s v ind = some ea → memRead s ea = some m →
    operandOf s target ind' = some p →
      ∃ t : State, step s = .next t ∧ t.status = .running ∧ t.ac = s.ac ∧ t.dr = m.value ∧ t.mem = s.mem ∧
        t.pc = (s.pc + 1) % s.cfg.memorySize ∧
        (memRead t t.pc = some ⟨.jg, target, ind'⟩ → ∃ u, step t = .next u ∧ u.status = .running ∧
          u.pc = (if m.value ≤ s.ac then p else s.pc + 2) % s.cfg.memorySize) ∧
        (memRead t t.pc = some ⟨.jz, target, ind'⟩ → ∃ u, step t = .next u ∧ u.status = .running ∧
          u.pc = (if s.ac = m.value then p else s.pc + 2) % s.cfg.memorySize) ∧
        (memRead t t.pc = some ⟨.jnz, target, ind'⟩ → ∃ u, step t = .next u ∧ u.status = .running ∧
          u.pc = (if s.ac = m.value then s.pc + 2 else p) % s.cfg.memorySize)

/-! ### The step -/

/-- A step runs the decoded instruction: while the run is going and the limit is not reached, step is exec of what the
word at PC decodes to, on the state that fetch leaves (R120, R122): Addr the old PC, PC one higher mod MS, IR and DR the
word and its value, the ALU's result and flags those of the unreduced PC + 1, two ticks more. -/
def Obligations.StepRunsDecodedInstruction : Prop :=
  ∀ (s : State) (w : MachineWord), s.status = .running → s.instr < s.cfg.limit → memRead s s.pc = some w →
    decode (.word w) = .ok (decodeWord w) ∧ ∃ l,
      step s =
        exec (decodeWord w) { s with
          pc := (s.pc + 1) % s.cfg.memorySize, addr := s.pc, ir := w, dr := w.value
          alu := ⟨s.pc + 1, flagsOf (s.pc + 1)⟩, aluInputs := l, tick := s.tick + 2 }

/-- R120, R184 (with D14): at INSTR ≥ LIMIT nothing is fetched: STATUS and DIAG change and nothing else. -/
def Obligations.LimitStopsBeforeFetch : Prop :=
  ∀ s : State, s.status = .running → s.cfg.limit ≤ s.instr →
    step s = .next { s with status := .limitReached, diag := s.diag ++ [.limitExceeded] }

/-- R30, R183: only a running machine has a next step, and a running machine always has one. -/
def Obligations.OnlyRunningSteps : Prop :=
  ∀ s : State,
    (s.status = .running → ∃ t, step s = .next t) ∧ (s.status ≠ .running → ∃ f, step s = .fault f)

/-- R126, R182: from a running state a step leaves the run going, with one instruction counted, or ends it in one of
four ways and no other: at the limit; on a halt; on an in with no input; on an address that names no cell. A ConfigFault
never happens. That the limit is compared before the fetch is the spec's decision D14 (log entry 6). -/
def Obligations.WaysAStepCanEnd : Prop :=
  ∀ s t : State, step s = .next t →
    (t.status = .running ∧ t.instr = s.instr + 1) ∨
      (t.status = .limitReached ∧ s.cfg.limit ≤ s.instr) ∨
      (t.status = .halted .haltInstr ∧ t.ir.opcode = .halt) ∨
      (t.status = .halted .inputExhausted ∧ t.ir.opcode = .input ∧ s.inBuf = []) ∨
      ∃ a, t.status = .faulted (.addressFault a) ∧ t.addr = a ∧ t.instr = s.instr ∧
        ¬(0 ≤ a ∧ a < s.cfg.memorySize)

/-- R127, which the spec derives: the ticks one instruction adds: 2 for fetch, 2 more if indirect, and its execute count;
a halting instruction is charged for its fetch and indirect resolution alone. The one execute tick of inc and dec is the
spec's resolution C1, the starved in is its decision D12, indirect resolution for every opcode is D15 (log entry 6). -/
def Obligations.TickTotals : Prop :=
  ∀ (s t : State) (w : MachineWord), s.instr < s.cfg.limit → memRead s s.pc = some w → step s = .next t →
    (t.status = .running → t.tick = s.tick + 2 + indirectTicks w.isIndirect + executeTicks w.opcode) ∧
      ∀ c, t.status = .halted c → t.tick = s.tick + 2 + indirectTicks w.isIndirect

/-- R206, which the spec derives: what each instruction that completes leaves in PS: the flags of the value that the
table gives it. -/
def Obligations.FlagsLeftInPs : Prop :=
  ∀ (s t : State) (w : MachineWord), s.instr < s.cfg.limit → memRead s s.pc = some w → step s = .next t →
    t.status = .running → t.ps = flagsOf (lastValue w s t)

/-- R196, which the spec derives: the state at each ending of an instruction: after a halt or a starved in, PC at the
next cell, Addr, IR and ALU.result from the last phase that ran, PS, AC, SP, ToMem, memory and buffers unchanged; after
an AddressFault, PS and AC unchanged, INSTR not counted, and three ticks, two more where indirect resolution had
completed. The ticks that a raise leaves uncharged are the spec's decisions D12 and D16, the unlatched flags D13, the
read in X2 D10, and indirect resolution for every opcode D15 (log entry 6). -/
def Obligations.StateAtEachEnding : Prop :=
  ∀ (s t : State) (w : MachineWord), s.instr < s.cfg.limit → memRead s s.pc = some w → step s = .next t →
    (∀ c, t.status = .halted c →
      t.pc = (s.pc + 1) % s.cfg.memorySize ∧ t.tick = s.tick + 2 + indirectTicks w.isIndirect ∧
        t.instr = (if s.cfg.countHalting then s.instr + 1 else s.instr) ∧ t.ps = s.ps ∧ t.ir = w ∧
        t.addr = (if w.isIndirect then w.value else s.pc) ∧
        t.alu.result = (if w.isIndirect then w.value else s.pc + 1) ∧
        operandOf s w.value w.isIndirect = some t.dr ∧ t.ac = s.ac ∧ t.sp = s.sp ∧ t.toMem = s.toMem ∧
        t.mem = s.mem ∧ t.inBuf = s.inBuf ∧ t.outBuf = s.outBuf ∧ t.diag = s.diag) ∧
      ∀ f, t.status = .faulted f →
        f = .addressFault t.addr ∧ t.instr = s.instr ∧ t.ps = s.ps ∧ t.ac = s.ac ∧ t.mem = s.mem ∧ t.ir = w ∧
          (operandOf s w.value w.isIndirect = none →
            t.pc = (s.pc + 1) % s.cfg.memorySize ∧ t.tick = s.tick + 3 ∧ t.addr = w.value ∧ t.dr = w.value) ∧
          (∀ ea, operandOf s w.value w.isIndirect = some ea → w.opcode ≠ .push → w.opcode ≠ .pop →
            t.pc = (s.pc + 1) % s.cfg.memorySize ∧ t.tick = s.tick + 3 + indirectTicks w.isIndirect ∧
              t.addr = ea ∧ (w.opcode = .store → t.toMem = s.ac))

/-- R11, R14, R17, R26, R27, R31: which instructions write SP, ToMem, AC, the buffers and DIAG; no instruction writes
the parameters. -/
def Obligations.WritersOfEachRegister : Prop :=
  ∀ (s t : State) (w : MachineWord), s.instr < s.cfg.limit → memRead s s.pc = some w → step s = .next t →
    t.cfg = s.cfg ∧
      (w.opcode ∉ [.push, .pop] → t.sp = s.sp) ∧
      (w.opcode ∉ [.push, .store] → t.toMem = s.toMem) ∧
      (w.opcode ∉ [.inc, .dec, .load, .add, .sub, .mul, .div, .pop, .input] → t.ac = s.ac) ∧
      (w.opcode ∉ [.push, .store] → t.mem = s.mem) ∧
      (w.opcode ∉ [.jg, .jz, .jnz, .jmp] → t.pc = (s.pc + 1) % s.cfg.memorySize) ∧
      (w.opcode ≠ .input → t.inBuf = s.inBuf) ∧ (w.opcode ≠ .out → t.outBuf = s.outBuf) ∧
      (w.opcode ≠ .div → t.diag = s.diag)

/-- R50, R112 (with D7; log entry 6): which cell a step writes, and with what. A push whose operand resolves writes
`(nop, AC, false)` to the cell of the address `SP - 1`, a store to the cell of its effective address, and each leaves
every other cell as it was; where that address names no cell, where an indirect operand does not resolve, at the limit,
where PC names no cell, and for every other opcode, memory is unchanged. So every cell is as before or a nop word: no
program can create an instruction other than nop. -/
def Obligations.WrittenCellsAreNopWords : Prop :=
  ∀ s t : State, step s = .next t →
    (∀ w, s.instr < s.cfg.limit → memRead s s.pc = some w →
      (∀ p i, w.opcode = .push → operandOf s w.value w.isIndirect = some p →
        writeIndex s.cfg.memorySize (s.sp - 1) = some i →
          ∀ j, readCell t.mem j = if j = i then ⟨.nop, s.ac, false⟩ else readCell s.mem j) ∧
        (∀ ea i, w.opcode = .store → operandOf s w.value w.isIndirect = some ea →
          writeIndex s.cfg.memorySize ea = some i →
            ∀ j, readCell t.mem j = if j = i then ⟨.nop, s.ac, false⟩ else readCell s.mem j) ∧
        (w.opcode = .push → writeIndex s.cfg.memorySize (s.sp - 1) = none → t.mem = s.mem) ∧
        (∀ ea, w.opcode = .store → operandOf s w.value w.isIndirect = some ea →
          writeIndex s.cfg.memorySize ea = none → t.mem = s.mem) ∧
        (operandOf s w.value w.isIndirect = none → t.mem = s.mem) ∧
        (w.opcode ≠ .push → w.opcode ≠ .store → t.mem = s.mem)) ∧
      (s.cfg.limit ≤ s.instr → t.mem = s.mem) ∧
      (memRead s s.pc = none → t.mem = s.mem) ∧
      ∀ j, readCell t.mem j = readCell s.mem j ∨ ∃ v, readCell t.mem j = ⟨.nop, v, false⟩

/-- R26, R27: OUT_BUF only grows, at its end, and IN_BUF only shrinks, at its head, in both cases by at most one. -/
def Obligations.BuffersMoveOneWay : Prop :=
  ∀ s t : State, step s = .next t →
    (t.outBuf = s.outBuf ∨ ∃ v, t.outBuf = s.outBuf ++ [v]) ∧ (t.inBuf = s.inBuf ∨ ∃ c, s.inBuf = c :: t.inBuf)

/-- The invariant is kept by every step, from every state that has it (R16, R17, R40, R81, R120). -/
def Obligations.StepKeepsInvariant : Prop := ∀ s t : State, s.Inv → step s = .next t → t.Inv

/-- R211, which the spec derives: the bounds on TICK are kept by every step. -/
def Obligations.StepKeepsTickBounds : Prop :=
  ∀ s t : State, s.TickBounds → step s = .next t → t.TickBounds

/-- The reset state has the invariant and the bounds. -/
def Obligations.ResetSatisfiesInvariants : Prop := State.reset.Inv ∧ State.reset.TickBounds

/-- R16, R122: in a state that has the invariant the fetch never faults: a step that faults has fetched its word. -/
def Obligations.SoundFetchNeverFaults : Prop :=
  ∀ s : State, s.Inv → ∃ w t, memRead s s.pc = some w ∧ fetch s = .done t ∧ t.ir = w ∧ t.dr = w.value

/-- R24, R210: what the last instruction left in the ALU's outputs and recorded inputs, in Addr, in DR and in IR is
never read by the next one. -/
def Obligations.StaleLatchesNeverRead : Prop :=
  ∀ (s : State) (w : MachineWord) (alu : AluOutputs) (l : AluInputs) (addr dr : Int) (ir : MachineWord),
    s.status = .running → s.instr < s.cfg.limit → memRead s s.pc = some w →
      step { s with alu := alu, aluInputs := l, addr := addr, dr := dr, ir := ir } = step s

/-- R31, R191, R211: no rule of the machine depends on TICK or on DIAG: two states that differ in them alone step alike,
each keeping its own. -/
def Obligations.TickAndDiagNeverRead : Prop :=
  ∀ (s t : State) (n : Nat) (d : List Diagnostic), step s = .next t →
    ∃ (k : Nat) (d' : List Diagnostic), t.tick = s.tick + k ∧ t.diag = s.diag ++ d' ∧
      step { s with tick := n, diag := d } = .next { t with tick := n + k, diag := d ++ d' }

/-- R128: the control unit as a finite-state machine of one state per tick, run from F1 until the instruction ends,
leaves the state that the step leaves, in at most eight transitions. -/
def Obligations.TickMachineAgreesWithStep : Prop :=
  ∀ s : State, s.status = .running → s.instr < s.cfg.limit →
    ∃ t, step s = .next t ∧ runTicks 8 .f1 s = some t

/-- R126, R181, R197: the host gets (OUT_BUF, INSTR, TICK) at each of the three clean endings, and nothing after a fault
or while the run goes on. -/
def Obligations.HostGetsResultAtCleanEnds : Prop :=
  ∀ s : State,
    (s.endedCleanly = true → hostResult s = some ⟨s.outBuf, s.instr, s.tick⟩) ∧
      (s.endedCleanly = false → hostResult s = none)
end

