-- ==== Sys2Proof/Laws/Memory.lean ====
section
/-! SUPPORT. What the memory operations do: a cell read after a write, the canonical form kept, and the reads and writes
that are admitted (spec/20_memory.md R40 to R43, R49). -/

namespace Sys2Proof.Machine

@[simp] theorem readCell_nil (i : Nat) : readCell [] i = .blank := rfl

theorem readCell_cons (k : Nat) (w : MachineWord) (m : Memory) (i : Nat) :
    readCell ((k, w) :: m) i = if k = i then w else readCell m i := rfl

@[simp] theorem readCell_eraseCell_same (i : Nat) (m : Memory) : readCell (eraseCell i m) i = .blank := by
  induction m with
  | nil => rfl
  | cons c m ih =>
    obtain ⟨k, w⟩ := c
    by_cases h : k = i <;> simp [eraseCell, readCell_cons, h, ih]

theorem readCell_eraseCell_other {i j : Nat} (h : j ≠ i) (m : Memory) :
    readCell (eraseCell i m) j = readCell m j := by
  induction m with
  | nil => rfl
  | cons c m ih =>
    obtain ⟨k, w⟩ := c
    by_cases hk : k = i
    · subst hk; simp [eraseCell, readCell_cons, Ne.symm h, ih]
    · simp [eraseCell, readCell_cons, hk, ih]

theorem mem_eraseCell {i : Nat} {m : Memory} {c : Nat × MachineWord} :
    c ∈ eraseCell i m ↔ c ∈ m ∧ c.1 ≠ i := by
  induction m with
  | nil => simp [eraseCell]
  | cons d m ih =>
    obtain ⟨k, w⟩ := d
    by_cases hk : k = i
    · subst hk
      simp only [eraseCell, if_true, ih, List.mem_cons]
      constructor
      · exact fun ⟨h, h'⟩ => ⟨.inr h, h'⟩
      · rintro ⟨rfl | h, h'⟩
        · exact absurd rfl h'
        · exact ⟨h, h'⟩
    · simp only [eraseCell, hk, if_false, List.mem_cons, ih]
      constructor
      · rintro (rfl | ⟨h, h'⟩)
        · exact ⟨.inl rfl, hk⟩
        · exact ⟨.inr h, h'⟩
      · rintro ⟨rfl | h, h'⟩
        · exact .inl rfl
        · exact .inr ⟨h, h'⟩

theorem readCell_insertCell_same {i : Nat} (w : MachineWord) {m : Memory} (h : ∀ c ∈ m, c.1 ≠ i) :
    readCell (insertCell i w m) i = w := by
  induction m with
  | nil => simp [insertCell, readCell_cons]
  | cons c m ih =>
    obtain ⟨k, v⟩ := c
    by_cases hk : i < k
    · simp [insertCell, readCell_cons, hk]
    · have h1 : k ≠ i := h (k, v) (by simp)
      simp [insertCell, readCell_cons, hk, h1, ih fun c hc => h c (by simp [hc])]

theorem readCell_insertCell_other {i j : Nat} (hij : j ≠ i) (w : MachineWord) (m : Memory) :
    readCell (insertCell i w m) j = readCell m j := by
  induction m with
  | nil => simp [insertCell, readCell_cons, Ne.symm hij]
  | cons c m ih =>
    obtain ⟨k, v⟩ := c
    by_cases hk : i < k
    · simp [insertCell, readCell_cons, hk, Ne.symm hij]
    · simp [insertCell, readCell_cons, hk, ih]

/-- A cell reads as what was last written to it (R49). -/
@[simp] theorem readCell_setCell_same (i : Nat) (w : MachineWord) (m : Memory) : readCell (setCell i w m) i = w := by
  unfold setCell
  split
  · next h => rw [h, readCell_eraseCell_same]
  · exact readCell_insertCell_same w fun c hc => (mem_eraseCell.1 hc).2

/-- A write leaves every other cell alone. -/
theorem readCell_setCell_other {i j : Nat} (h : j ≠ i) (w : MachineWord) (m : Memory) :
    readCell (setCell i w m) j = readCell m j := by
  unfold setCell
  split
  · exact readCell_eraseCell_other h m
  · rw [readCell_insertCell_other h, readCell_eraseCell_other h]

/-! ### The canonical form -/

theorem Memory.wf_nil : Memory.wf [] := by simp [Memory.wf]

theorem Memory.wf_cons {k : Nat} {w : MachineWord} {m : Memory} :
    Memory.wf ((k, w) :: m) ↔ (∀ c ∈ m, k < c.1) ∧ w ≠ .blank ∧ Memory.wf m := by
  simp only [Memory.wf, List.map_cons, List.pairwise_cons, List.mem_map, List.mem_cons]
  constructor
  · rintro ⟨⟨h1, h2⟩, h3⟩
    exact ⟨fun c hc => h1 _ ⟨c, hc, rfl⟩, h3 _ (.inl rfl), h2, fun c hc => h3 c (.inr hc)⟩
  · rintro ⟨h1, h2, h3, h4⟩
    refine ⟨⟨?_, h3⟩, ?_⟩
    · rintro _ ⟨c, hc, rfl⟩; exact h1 c hc
    · rintro c (rfl | hc)
      · exact h2
      · exact h4 c hc

theorem Memory.wf_eraseCell (i : Nat) {m : Memory} (h : Memory.wf m) : Memory.wf (eraseCell i m) := by
  induction m with
  | nil => exact h
  | cons c m ih =>
    obtain ⟨k, w⟩ := c
    obtain ⟨h1, h2, h3⟩ := Memory.wf_cons.1 h
    unfold eraseCell
    split
    · exact ih h3
    · exact Memory.wf_cons.2 ⟨fun c hc => h1 c (mem_eraseCell.1 hc).1, h2, ih h3⟩

theorem mem_insertCell {i : Nat} {w : MachineWord} {m : Memory} {c : Nat × MachineWord} :
    c ∈ insertCell i w m ↔ c = (i, w) ∨ c ∈ m := by
  induction m with
  | nil => simp [insertCell]
  | cons d m ih =>
    obtain ⟨k, v⟩ := d
    unfold insertCell
    split
    · simp
    · simp only [List.mem_cons, ih]; tauto

theorem Memory.wf_insertCell {i : Nat} {w : MachineWord} (hw : w ≠ .blank) {m : Memory} (h : Memory.wf m)
    (hi : ∀ c ∈ m, c.1 ≠ i) : Memory.wf (insertCell i w m) := by
  induction m with
  | nil => simpa [insertCell, Memory.wf] using hw
  | cons c m ih =>
    obtain ⟨k, v⟩ := c
    obtain ⟨h1, h2, h3⟩ := Memory.wf_cons.1 h
    have hki : k ≠ i := hi (k, v) (by simp)
    unfold insertCell
    split
    · next hlt =>
      refine Memory.wf_cons.2 ⟨?_, hw, h⟩
      intro c hc
      rcases List.mem_cons.1 hc with rfl | hc
      · exact hlt
      · exact lt_trans hlt (h1 c hc)
    · next hlt =>
      refine Memory.wf_cons.2 ⟨?_, h2, ih h3 fun c hc => hi c (by simp [hc])⟩
      intro c hc
      rcases mem_insertCell.1 hc with rfl | hc
      · show k < i
        omega
      · exact h1 c hc

/-- Every write keeps the canonical form. -/
theorem Memory.wf_setCell (i : Nat) (w : MachineWord) {m : Memory} (h : Memory.wf m) : Memory.wf (setCell i w m) := by
  unfold setCell
  split
  · exact Memory.wf_eraseCell i h
  · next hw => exact Memory.wf_insertCell hw (Memory.wf_eraseCell i h) fun c hc => (mem_eraseCell.1 hc).2

/-- A write of a cell inside the array keeps memory inside the array. -/
theorem Memory.fits_setCell {ms i : Nat} (hi : i < ms) (w : MachineWord) {m : Memory} (h : Memory.fits ms m) :
    Memory.fits ms (setCell i w m) := by
  intro c hc
  unfold setCell at hc
  split at hc
  · exact h c (mem_eraseCell.1 hc).1
  · rcases mem_insertCell.1 hc with rfl | hc
    · exact hi
    · exact h c (mem_eraseCell.1 hc).1

theorem readCell_of_lt {i : Nat} {m : Memory} (h : ∀ c ∈ m, i < c.1) : readCell m i = .blank := by
  induction m with
  | nil => rfl
  | cons c m ih =>
    obtain ⟨k, w⟩ := c
    have : k ≠ i := Nat.ne_of_gt (h (k, w) (by simp))
    simp [readCell_cons, this, ih fun c hc => h c (by simp [hc])]

/-- Canonical memories that read alike are the same list. -/
theorem Memory.ext_of_wf {m m' : Memory} (h : Memory.wf m) (h' : Memory.wf m')
    (he : ∀ i, readCell m i = readCell m' i) : m = m' := by
  induction m generalizing m' with
  | nil =>
    cases m' with
    | nil => rfl
    | cons c m' =>
      obtain ⟨k, w⟩ := c
      have := he k
      simp only [readCell_nil, readCell_cons, if_true] at this
      exact absurd this.symm (Memory.wf_cons.1 h').2.1
  | cons c m ih =>
    obtain ⟨k, w⟩ := c
    obtain ⟨h1, h2, h3⟩ := Memory.wf_cons.1 h
    cases m' with
    | nil =>
      have := he k
      simp only [readCell_nil, readCell_cons, if_true] at this
      exact absurd this h2
    | cons c' m' =>
      obtain ⟨k', w'⟩ := c'
      obtain ⟨h1', h2', h3'⟩ := Memory.wf_cons.1 h'
      have hk : k = k' := by
        rcases lt_trichotomy k k' with hlt | heq | hgt
        · have := he k
          rw [readCell_cons, if_pos rfl, readCell_of_lt] at this
          · exact absurd this h2
          · intro c hc
            rcases List.mem_cons.1 hc with rfl | hc
            · exact hlt
            · exact lt_trans hlt (h1' c hc)
        · exact heq
        · have := he k'
          rw [readCell_cons (k := k'), if_pos rfl, readCell_of_lt] at this
          · exact absurd this.symm h2'
          · intro c hc
            rcases List.mem_cons.1 hc with rfl | hc
            · exact hgt
            · exact lt_trans hgt (h1 c hc)
      subst hk
      have hw : w = w' := by simpa [readCell_cons] using he k
      subst hw
      refine congrArg _ (ih h3 h3' fun i => ?_)
      by_cases hi : k = i
      · subst hi; rw [readCell_of_lt h1, readCell_of_lt h1']
      · simpa [readCell_cons, hi] using he i

/-! ### Admitted reads and writes -/

/-- R42: the reads that are admitted, and what they deliver. -/
theorem memRead_eq_some {s : State} {a : Int} {w : MachineWord} :
    memRead s a = some w ↔ 0 ≤ a ∧ a < s.cfg.memorySize ∧ w = readCell s.mem a.toNat := by
  unfold memRead readAt
  split
  · next h => simp [h, eq_comm]
  · next h => simp only [reduceCtorEq, false_iff]; tauto

/-- R42: the reads that fault. -/
theorem memRead_eq_none {s : State} {a : Int} : memRead s a = none ↔ ¬(0 ≤ a ∧ a < s.cfg.memorySize) := by
  unfold memRead readAt
  split <;> simp_all

/-- A read looks at the memory size and at memory alone. -/
theorem memRead_congr {s t : State} (hc : t.cfg = s.cfg) (hm : t.mem = s.mem) (a : Int) :
    memRead t a = memRead s a := by
  unfold memRead; rw [hc, hm]

/-- R43: a write address names a cell of the array. -/
theorem writeIndex_lt {ms : Nat} {a : Int} {i : Nat} (h : writeIndex ms a = some i) : i < ms := by
  unfold writeIndex at h
  split at h
  · cases h; omega
  · split at h
    · cases h; omega
    · cases h

/-- R43: an address inside the array names its own cell. -/
theorem writeIndex_of_nonneg {ms : Nat} {a : Int} (h0 : 0 ≤ a) (h1 : a < ms) : writeIndex ms a = some a.toNat := by
  simp [writeIndex, h0, h1]

/-- R43: a negative address down to -MS counts from the end. -/
theorem writeIndex_of_neg {ms : Nat} {a : Int} (h0 : -(ms : Int) ≤ a) (h1 : a < 0) :
    writeIndex ms a = some (a + ms).toNat := by
  simp [writeIndex, h0, h1, not_le.2 h1]

/-- R43: the addresses whose write faults. -/
theorem writeIndex_eq_none {ms : Nat} {a : Int} : writeIndex ms a = none ↔ a < -(ms : Int) ∨ (ms : Int) ≤ a := by
  unfold writeIndex
  split
  · simp; omega
  · split
    · simp; omega
    · simp; omega

/-- R43: all that a write can do. -/
theorem memWrite_eq_some {s t : State} {a : Int} {w : MachineWord} :
    memWrite s a w = some t ↔
      ∃ i, writeIndex s.cfg.memorySize a = some i ∧ t = { s with mem := setCell i w s.mem } := by
  unfold memWrite
  cases writeIndex s.cfg.memorySize a <;> simp [eq_comm]

/-- R16, R17, R103, R104: a reduced value is an index of the array. -/
theorem wrap_range {s : State} (h : 1 ≤ s.cfg.memorySize) (v : Int) :
    0 ≤ wrap s v ∧ wrap s v < s.cfg.memorySize := by
  have hpos : (0 : Int) < (s.cfg.memorySize : Int) := by exact_mod_cast h
  exact ⟨Int.emod_nonneg _ (by omega), Int.emod_lt_of_pos _ hpos⟩

end Sys2Proof.Machine
end

