-- ==== Sys2Proof/Laws/State.lean ====
section
/-! SUPPORT. One lemma per field per update of the state: what each named update leaves in each field. -/

namespace Sys2Proof.Machine

/-! ### latchAddr -/

@[simp] theorem latchAddr_cfg (s : State) : (latchAddr s).cfg = s.cfg := rfl
@[simp] theorem latchAddr_mem (s : State) : (latchAddr s).mem = s.mem := rfl
@[simp] theorem latchAddr_pc (s : State) : (latchAddr s).pc = s.pc := rfl
@[simp] theorem latchAddr_sp (s : State) : (latchAddr s).sp = s.sp := rfl
@[simp] theorem latchAddr_ac (s : State) : (latchAddr s).ac = s.ac := rfl
@[simp] theorem latchAddr_dr (s : State) : (latchAddr s).dr = s.dr := rfl
@[simp] theorem latchAddr_addr (s : State) : (latchAddr s).addr = s.alu.result := rfl
@[simp] theorem latchAddr_toMem (s : State) : (latchAddr s).toMem = s.toMem := rfl
@[simp] theorem latchAddr_ir (s : State) : (latchAddr s).ir = s.ir := rfl
@[simp] theorem latchAddr_ps (s : State) : (latchAddr s).ps = s.ps := rfl
@[simp] theorem latchAddr_alu (s : State) : (latchAddr s).alu = s.alu := rfl
@[simp] theorem latchAddr_aluInputs (s : State) : (latchAddr s).aluInputs = s.aluInputs := rfl
@[simp] theorem latchAddr_inBuf (s : State) : (latchAddr s).inBuf = s.inBuf := rfl
@[simp] theorem latchAddr_outBuf (s : State) : (latchAddr s).outBuf = s.outBuf := rfl
@[simp] theorem latchAddr_tick (s : State) : (latchAddr s).tick = s.tick := rfl
@[simp] theorem latchAddr_instr (s : State) : (latchAddr s).instr = s.instr := rfl
@[simp] theorem latchAddr_status (s : State) : (latchAddr s).status = s.status := rfl
@[simp] theorem latchAddr_diag (s : State) : (latchAddr s).diag = s.diag := rfl

/-! ### latchPc -/

@[simp] theorem latchPc_cfg (s : State) : (latchPc s).cfg = s.cfg := rfl
@[simp] theorem latchPc_mem (s : State) : (latchPc s).mem = s.mem := rfl
@[simp] theorem latchPc_pc (s : State) : (latchPc s).pc = wrap s s.alu.result := rfl
@[simp] theorem latchPc_sp (s : State) : (latchPc s).sp = s.sp := rfl
@[simp] theorem latchPc_ac (s : State) : (latchPc s).ac = s.ac := rfl
@[simp] theorem latchPc_dr (s : State) : (latchPc s).dr = s.dr := rfl
@[simp] theorem latchPc_addr (s : State) : (latchPc s).addr = s.addr := rfl
@[simp] theorem latchPc_toMem (s : State) : (latchPc s).toMem = s.toMem := rfl
@[simp] theorem latchPc_ir (s : State) : (latchPc s).ir = s.ir := rfl
@[simp] theorem latchPc_ps (s : State) : (latchPc s).ps = s.ps := rfl
@[simp] theorem latchPc_alu (s : State) : (latchPc s).alu = s.alu := rfl
@[simp] theorem latchPc_aluInputs (s : State) : (latchPc s).aluInputs = s.aluInputs := rfl
@[simp] theorem latchPc_inBuf (s : State) : (latchPc s).inBuf = s.inBuf := rfl
@[simp] theorem latchPc_outBuf (s : State) : (latchPc s).outBuf = s.outBuf := rfl
@[simp] theorem latchPc_tick (s : State) : (latchPc s).tick = s.tick := rfl
@[simp] theorem latchPc_instr (s : State) : (latchPc s).instr = s.instr := rfl
@[simp] theorem latchPc_status (s : State) : (latchPc s).status = s.status := rfl
@[simp] theorem latchPc_diag (s : State) : (latchPc s).diag = s.diag := rfl

/-! ### latchSp -/

@[simp] theorem latchSp_cfg (s : State) : (latchSp s).cfg = s.cfg := rfl
@[simp] theorem latchSp_mem (s : State) : (latchSp s).mem = s.mem := rfl
@[simp] theorem latchSp_pc (s : State) : (latchSp s).pc = s.pc := rfl
@[simp] theorem latchSp_sp (s : State) : (latchSp s).sp = wrap s s.alu.result := rfl
@[simp] theorem latchSp_ac (s : State) : (latchSp s).ac = s.ac := rfl
@[simp] theorem latchSp_dr (s : State) : (latchSp s).dr = s.dr := rfl
@[simp] theorem latchSp_addr (s : State) : (latchSp s).addr = s.addr := rfl
@[simp] theorem latchSp_toMem (s : State) : (latchSp s).toMem = s.toMem := rfl
@[simp] theorem latchSp_ir (s : State) : (latchSp s).ir = s.ir := rfl
@[simp] theorem latchSp_ps (s : State) : (latchSp s).ps = s.ps := rfl
@[simp] theorem latchSp_alu (s : State) : (latchSp s).alu = s.alu := rfl
@[simp] theorem latchSp_aluInputs (s : State) : (latchSp s).aluInputs = s.aluInputs := rfl
@[simp] theorem latchSp_inBuf (s : State) : (latchSp s).inBuf = s.inBuf := rfl
@[simp] theorem latchSp_outBuf (s : State) : (latchSp s).outBuf = s.outBuf := rfl
@[simp] theorem latchSp_tick (s : State) : (latchSp s).tick = s.tick := rfl
@[simp] theorem latchSp_instr (s : State) : (latchSp s).instr = s.instr := rfl
@[simp] theorem latchSp_status (s : State) : (latchSp s).status = s.status := rfl
@[simp] theorem latchSp_diag (s : State) : (latchSp s).diag = s.diag := rfl

/-! ### latchToMem -/

@[simp] theorem latchToMem_cfg (s : State) : (latchToMem s).cfg = s.cfg := rfl
@[simp] theorem latchToMem_mem (s : State) : (latchToMem s).mem = s.mem := rfl
@[simp] theorem latchToMem_pc (s : State) : (latchToMem s).pc = s.pc := rfl
@[simp] theorem latchToMem_sp (s : State) : (latchToMem s).sp = s.sp := rfl
@[simp] theorem latchToMem_ac (s : State) : (latchToMem s).ac = s.ac := rfl
@[simp] theorem latchToMem_dr (s : State) : (latchToMem s).dr = s.dr := rfl
@[simp] theorem latchToMem_addr (s : State) : (latchToMem s).addr = s.addr := rfl
@[simp] theorem latchToMem_toMem (s : State) : (latchToMem s).toMem = s.alu.result := rfl
@[simp] theorem latchToMem_ir (s : State) : (latchToMem s).ir = s.ir := rfl
@[simp] theorem latchToMem_ps (s : State) : (latchToMem s).ps = s.ps := rfl
@[simp] theorem latchToMem_alu (s : State) : (latchToMem s).alu = s.alu := rfl
@[simp] theorem latchToMem_aluInputs (s : State) : (latchToMem s).aluInputs = s.aluInputs := rfl
@[simp] theorem latchToMem_inBuf (s : State) : (latchToMem s).inBuf = s.inBuf := rfl
@[simp] theorem latchToMem_outBuf (s : State) : (latchToMem s).outBuf = s.outBuf := rfl
@[simp] theorem latchToMem_tick (s : State) : (latchToMem s).tick = s.tick := rfl
@[simp] theorem latchToMem_instr (s : State) : (latchToMem s).instr = s.instr := rfl
@[simp] theorem latchToMem_status (s : State) : (latchToMem s).status = s.status := rfl
@[simp] theorem latchToMem_diag (s : State) : (latchToMem s).diag = s.diag := rfl

/-! ### latchPsFlags -/

@[simp] theorem latchPsFlags_cfg (s : State) : (latchPsFlags s).cfg = s.cfg := rfl
@[simp] theorem latchPsFlags_mem (s : State) : (latchPsFlags s).mem = s.mem := rfl
@[simp] theorem latchPsFlags_pc (s : State) : (latchPsFlags s).pc = s.pc := rfl
@[simp] theorem latchPsFlags_sp (s : State) : (latchPsFlags s).sp = s.sp := rfl
@[simp] theorem latchPsFlags_ac (s : State) : (latchPsFlags s).ac = s.ac := rfl
@[simp] theorem latchPsFlags_dr (s : State) : (latchPsFlags s).dr = s.dr := rfl
@[simp] theorem latchPsFlags_addr (s : State) : (latchPsFlags s).addr = s.addr := rfl
@[simp] theorem latchPsFlags_toMem (s : State) : (latchPsFlags s).toMem = s.toMem := rfl
@[simp] theorem latchPsFlags_ir (s : State) : (latchPsFlags s).ir = s.ir := rfl
@[simp] theorem latchPsFlags_ps (s : State) : (latchPsFlags s).ps = s.alu.flags := rfl
@[simp] theorem latchPsFlags_alu (s : State) : (latchPsFlags s).alu = s.alu := rfl
@[simp] theorem latchPsFlags_aluInputs (s : State) : (latchPsFlags s).aluInputs = s.aluInputs := rfl
@[simp] theorem latchPsFlags_inBuf (s : State) : (latchPsFlags s).inBuf = s.inBuf := rfl
@[simp] theorem latchPsFlags_outBuf (s : State) : (latchPsFlags s).outBuf = s.outBuf := rfl
@[simp] theorem latchPsFlags_tick (s : State) : (latchPsFlags s).tick = s.tick := rfl
@[simp] theorem latchPsFlags_instr (s : State) : (latchPsFlags s).instr = s.instr := rfl
@[simp] theorem latchPsFlags_status (s : State) : (latchPsFlags s).status = s.status := rfl
@[simp] theorem latchPsFlags_diag (s : State) : (latchPsFlags s).diag = s.diag := rfl

/-! ### tick -/

@[simp] theorem tick_cfg (s : State) : (tick s).cfg = s.cfg := rfl
@[simp] theorem tick_mem (s : State) : (tick s).mem = s.mem := rfl
@[simp] theorem tick_pc (s : State) : (tick s).pc = s.pc := rfl
@[simp] theorem tick_sp (s : State) : (tick s).sp = s.sp := rfl
@[simp] theorem tick_ac (s : State) : (tick s).ac = s.ac := rfl
@[simp] theorem tick_dr (s : State) : (tick s).dr = s.dr := rfl
@[simp] theorem tick_addr (s : State) : (tick s).addr = s.addr := rfl
@[simp] theorem tick_toMem (s : State) : (tick s).toMem = s.toMem := rfl
@[simp] theorem tick_ir (s : State) : (tick s).ir = s.ir := rfl
@[simp] theorem tick_ps (s : State) : (tick s).ps = s.ps := rfl
@[simp] theorem tick_alu (s : State) : (tick s).alu = s.alu := rfl
@[simp] theorem tick_aluInputs (s : State) : (tick s).aluInputs = s.aluInputs := rfl
@[simp] theorem tick_inBuf (s : State) : (tick s).inBuf = s.inBuf := rfl
@[simp] theorem tick_outBuf (s : State) : (tick s).outBuf = s.outBuf := rfl
@[simp] theorem tick_tick (s : State) : (tick s).tick = s.tick + 1 := rfl
@[simp] theorem tick_instr (s : State) : (tick s).instr = s.instr := rfl
@[simp] theorem tick_status (s : State) : (tick s).status = s.status := rfl
@[simp] theorem tick_diag (s : State) : (tick s).diag = s.diag := rfl

/-! ### enter -/

@[simp] theorem enter_cfg (w : MachineWord) (s : State) : (enter w s).cfg = s.cfg := rfl
@[simp] theorem enter_mem (w : MachineWord) (s : State) : (enter w s).mem = s.mem := rfl
@[simp] theorem enter_pc (w : MachineWord) (s : State) : (enter w s).pc = s.pc := rfl
@[simp] theorem enter_sp (w : MachineWord) (s : State) : (enter w s).sp = s.sp := rfl
@[simp] theorem enter_ac (w : MachineWord) (s : State) : (enter w s).ac = s.ac := rfl
@[simp] theorem enter_dr (w : MachineWord) (s : State) : (enter w s).dr = w.value := rfl
@[simp] theorem enter_addr (w : MachineWord) (s : State) : (enter w s).addr = s.addr := rfl
@[simp] theorem enter_toMem (w : MachineWord) (s : State) : (enter w s).toMem = s.toMem := rfl
@[simp] theorem enter_ir (w : MachineWord) (s : State) : (enter w s).ir = w := rfl
@[simp] theorem enter_ps (w : MachineWord) (s : State) : (enter w s).ps = s.ps := rfl
@[simp] theorem enter_alu (w : MachineWord) (s : State) : (enter w s).alu = s.alu := rfl
@[simp] theorem enter_aluInputs (w : MachineWord) (s : State) : (enter w s).aluInputs = s.aluInputs := rfl
@[simp] theorem enter_inBuf (w : MachineWord) (s : State) : (enter w s).inBuf = s.inBuf := rfl
@[simp] theorem enter_outBuf (w : MachineWord) (s : State) : (enter w s).outBuf = s.outBuf := rfl
@[simp] theorem enter_tick (w : MachineWord) (s : State) : (enter w s).tick = s.tick := rfl
@[simp] theorem enter_instr (w : MachineWord) (s : State) : (enter w s).instr = s.instr := rfl
@[simp] theorem enter_status (w : MachineWord) (s : State) : (enter w s).status = s.status := rfl
@[simp] theorem enter_diag (w : MachineWord) (s : State) : (enter w s).diag = s.diag := rfl

/-! ### aluWrite -/

@[simp] theorem aluWrite_cfg (op : AluOp) (a b : Option Int) (v : Int) (s : State) : (aluWrite op a b v s).cfg = s.cfg := rfl
@[simp] theorem aluWrite_mem (op : AluOp) (a b : Option Int) (v : Int) (s : State) : (aluWrite op a b v s).mem = s.mem := rfl
@[simp] theorem aluWrite_pc (op : AluOp) (a b : Option Int) (v : Int) (s : State) : (aluWrite op a b v s).pc = s.pc := rfl
@[simp] theorem aluWrite_sp (op : AluOp) (a b : Option Int) (v : Int) (s : State) : (aluWrite op a b v s).sp = s.sp := rfl
@[simp] theorem aluWrite_ac (op : AluOp) (a b : Option Int) (v : Int) (s : State) : (aluWrite op a b v s).ac = s.ac := rfl
@[simp] theorem aluWrite_dr (op : AluOp) (a b : Option Int) (v : Int) (s : State) : (aluWrite op a b v s).dr = s.dr := rfl
@[simp] theorem aluWrite_addr (op : AluOp) (a b : Option Int) (v : Int) (s : State) : (aluWrite op a b v s).addr = s.addr := rfl
@[simp] theorem aluWrite_toMem (op : AluOp) (a b : Option Int) (v : Int) (s : State) : (aluWrite op a b v s).toMem = s.toMem := rfl
@[simp] theorem aluWrite_ir (op : AluOp) (a b : Option Int) (v : Int) (s : State) : (aluWrite op a b v s).ir = s.ir := rfl
@[simp] theorem aluWrite_ps (op : AluOp) (a b : Option Int) (v : Int) (s : State) : (aluWrite op a b v s).ps = s.ps := rfl
@[simp] theorem aluWrite_alu (op : AluOp) (a b : Option Int) (v : Int) (s : State) : (aluWrite op a b v s).alu = ⟨if aluStores op then v else s.alu.result, flagsOf v⟩ := rfl
@[simp] theorem aluWrite_aluInputs (op : AluOp) (a b : Option Int) (v : Int) (s : State) : (aluWrite op a b v s).aluInputs = ⟨a, b, some op⟩ := rfl
@[simp] theorem aluWrite_inBuf (op : AluOp) (a b : Option Int) (v : Int) (s : State) : (aluWrite op a b v s).inBuf = s.inBuf := rfl
@[simp] theorem aluWrite_outBuf (op : AluOp) (a b : Option Int) (v : Int) (s : State) : (aluWrite op a b v s).outBuf = s.outBuf := rfl
@[simp] theorem aluWrite_tick (op : AluOp) (a b : Option Int) (v : Int) (s : State) : (aluWrite op a b v s).tick = s.tick := rfl
@[simp] theorem aluWrite_instr (op : AluOp) (a b : Option Int) (v : Int) (s : State) : (aluWrite op a b v s).instr = s.instr := rfl
@[simp] theorem aluWrite_status (op : AluOp) (a b : Option Int) (v : Int) (s : State) : (aluWrite op a b v s).status = s.status := rfl
@[simp] theorem aluWrite_diag (op : AluOp) (a b : Option Int) (v : Int) (s : State) : (aluWrite op a b v s).diag = aluDiagnostics op b s.diag := rfl

/-! ### retire -/

@[simp] theorem retire_cfg (s : State) : (retire s).cfg = s.cfg := rfl
@[simp] theorem retire_mem (s : State) : (retire s).mem = s.mem := rfl
@[simp] theorem retire_pc (s : State) : (retire s).pc = s.pc := rfl
@[simp] theorem retire_sp (s : State) : (retire s).sp = s.sp := rfl
@[simp] theorem retire_ac (s : State) : (retire s).ac = s.ac := rfl
@[simp] theorem retire_dr (s : State) : (retire s).dr = s.dr := rfl
@[simp] theorem retire_addr (s : State) : (retire s).addr = s.addr := rfl
@[simp] theorem retire_toMem (s : State) : (retire s).toMem = s.toMem := rfl
@[simp] theorem retire_ir (s : State) : (retire s).ir = s.ir := rfl
@[simp] theorem retire_ps (s : State) : (retire s).ps = s.alu.flags := rfl
@[simp] theorem retire_alu (s : State) : (retire s).alu = s.alu := rfl
@[simp] theorem retire_aluInputs (s : State) : (retire s).aluInputs = s.aluInputs := rfl
@[simp] theorem retire_inBuf (s : State) : (retire s).inBuf = s.inBuf := rfl
@[simp] theorem retire_outBuf (s : State) : (retire s).outBuf = s.outBuf := rfl
@[simp] theorem retire_tick (s : State) : (retire s).tick = s.tick := rfl
@[simp] theorem retire_instr (s : State) : (retire s).instr = s.instr + 1 := rfl
@[simp] theorem retire_status (s : State) : (retire s).status = s.status := rfl
@[simp] theorem retire_diag (s : State) : (retire s).diag = s.diag := rfl

/-! ### reachLimit -/

@[simp] theorem reachLimit_cfg (s : State) : (reachLimit s).cfg = s.cfg := rfl
@[simp] theorem reachLimit_mem (s : State) : (reachLimit s).mem = s.mem := rfl
@[simp] theorem reachLimit_pc (s : State) : (reachLimit s).pc = s.pc := rfl
@[simp] theorem reachLimit_sp (s : State) : (reachLimit s).sp = s.sp := rfl
@[simp] theorem reachLimit_ac (s : State) : (reachLimit s).ac = s.ac := rfl
@[simp] theorem reachLimit_dr (s : State) : (reachLimit s).dr = s.dr := rfl
@[simp] theorem reachLimit_addr (s : State) : (reachLimit s).addr = s.addr := rfl
@[simp] theorem reachLimit_toMem (s : State) : (reachLimit s).toMem = s.toMem := rfl
@[simp] theorem reachLimit_ir (s : State) : (reachLimit s).ir = s.ir := rfl
@[simp] theorem reachLimit_ps (s : State) : (reachLimit s).ps = s.ps := rfl
@[simp] theorem reachLimit_alu (s : State) : (reachLimit s).alu = s.alu := rfl
@[simp] theorem reachLimit_aluInputs (s : State) : (reachLimit s).aluInputs = s.aluInputs := rfl
@[simp] theorem reachLimit_inBuf (s : State) : (reachLimit s).inBuf = s.inBuf := rfl
@[simp] theorem reachLimit_outBuf (s : State) : (reachLimit s).outBuf = s.outBuf := rfl
@[simp] theorem reachLimit_tick (s : State) : (reachLimit s).tick = s.tick := rfl
@[simp] theorem reachLimit_instr (s : State) : (reachLimit s).instr = s.instr := rfl
@[simp] theorem reachLimit_status (s : State) : (reachLimit s).status = .limitReached := rfl
@[simp] theorem reachLimit_diag (s : State) : (reachLimit s).diag = s.diag ++ [.limitExceeded] := rfl

/-! ### takeEvent_halt -/

@[simp] theorem takeEvent_halt_cfg (c : HaltCause) (s : State) : (takeEvent (.halt c) s).cfg = s.cfg := rfl
@[simp] theorem takeEvent_halt_mem (c : HaltCause) (s : State) : (takeEvent (.halt c) s).mem = s.mem := rfl
@[simp] theorem takeEvent_halt_pc (c : HaltCause) (s : State) : (takeEvent (.halt c) s).pc = s.pc := rfl
@[simp] theorem takeEvent_halt_sp (c : HaltCause) (s : State) : (takeEvent (.halt c) s).sp = s.sp := rfl
@[simp] theorem takeEvent_halt_ac (c : HaltCause) (s : State) : (takeEvent (.halt c) s).ac = s.ac := rfl
@[simp] theorem takeEvent_halt_dr (c : HaltCause) (s : State) : (takeEvent (.halt c) s).dr = s.dr := rfl
@[simp] theorem takeEvent_halt_addr (c : HaltCause) (s : State) : (takeEvent (.halt c) s).addr = s.addr := rfl
@[simp] theorem takeEvent_halt_toMem (c : HaltCause) (s : State) : (takeEvent (.halt c) s).toMem = s.toMem := rfl
@[simp] theorem takeEvent_halt_ir (c : HaltCause) (s : State) : (takeEvent (.halt c) s).ir = s.ir := rfl
@[simp] theorem takeEvent_halt_ps (c : HaltCause) (s : State) : (takeEvent (.halt c) s).ps = s.ps := rfl
@[simp] theorem takeEvent_halt_alu (c : HaltCause) (s : State) : (takeEvent (.halt c) s).alu = s.alu := rfl
@[simp] theorem takeEvent_halt_aluInputs (c : HaltCause) (s : State) : (takeEvent (.halt c) s).aluInputs = s.aluInputs := rfl
@[simp] theorem takeEvent_halt_inBuf (c : HaltCause) (s : State) : (takeEvent (.halt c) s).inBuf = s.inBuf := rfl
@[simp] theorem takeEvent_halt_outBuf (c : HaltCause) (s : State) : (takeEvent (.halt c) s).outBuf = s.outBuf := rfl
@[simp] theorem takeEvent_halt_tick (c : HaltCause) (s : State) : (takeEvent (.halt c) s).tick = s.tick := rfl
@[simp] theorem takeEvent_halt_instr (c : HaltCause) (s : State) : (takeEvent (.halt c) s).instr = if s.cfg.countHalting then s.instr + 1 else s.instr := rfl
@[simp] theorem takeEvent_halt_status (c : HaltCause) (s : State) : (takeEvent (.halt c) s).status = .halted c := rfl
@[simp] theorem takeEvent_halt_diag (c : HaltCause) (s : State) : (takeEvent (.halt c) s).diag = s.diag := rfl

/-! ### takeEvent_fatal -/

@[simp] theorem takeEvent_fatal_cfg (f : FatalFault) (s : State) : (takeEvent (.fatal f) s).cfg = s.cfg := rfl
@[simp] theorem takeEvent_fatal_mem (f : FatalFault) (s : State) : (takeEvent (.fatal f) s).mem = s.mem := rfl
@[simp] theorem takeEvent_fatal_pc (f : FatalFault) (s : State) : (takeEvent (.fatal f) s).pc = s.pc := rfl
@[simp] theorem takeEvent_fatal_sp (f : FatalFault) (s : State) : (takeEvent (.fatal f) s).sp = s.sp := rfl
@[simp] theorem takeEvent_fatal_ac (f : FatalFault) (s : State) : (takeEvent (.fatal f) s).ac = s.ac := rfl
@[simp] theorem takeEvent_fatal_dr (f : FatalFault) (s : State) : (takeEvent (.fatal f) s).dr = s.dr := rfl
@[simp] theorem takeEvent_fatal_addr (f : FatalFault) (s : State) : (takeEvent (.fatal f) s).addr = s.addr := rfl
@[simp] theorem takeEvent_fatal_toMem (f : FatalFault) (s : State) : (takeEvent (.fatal f) s).toMem = s.toMem := rfl
@[simp] theorem takeEvent_fatal_ir (f : FatalFault) (s : State) : (takeEvent (.fatal f) s).ir = s.ir := rfl
@[simp] theorem takeEvent_fatal_ps (f : FatalFault) (s : State) : (takeEvent (.fatal f) s).ps = s.ps := rfl
@[simp] theorem takeEvent_fatal_alu (f : FatalFault) (s : State) : (takeEvent (.fatal f) s).alu = s.alu := rfl
@[simp] theorem takeEvent_fatal_aluInputs (f : FatalFault) (s : State) : (takeEvent (.fatal f) s).aluInputs = s.aluInputs := rfl
@[simp] theorem takeEvent_fatal_inBuf (f : FatalFault) (s : State) : (takeEvent (.fatal f) s).inBuf = s.inBuf := rfl
@[simp] theorem takeEvent_fatal_outBuf (f : FatalFault) (s : State) : (takeEvent (.fatal f) s).outBuf = s.outBuf := rfl
@[simp] theorem takeEvent_fatal_tick (f : FatalFault) (s : State) : (takeEvent (.fatal f) s).tick = s.tick := rfl
@[simp] theorem takeEvent_fatal_instr (f : FatalFault) (s : State) : (takeEvent (.fatal f) s).instr = s.instr := rfl
@[simp] theorem takeEvent_fatal_status (f : FatalFault) (s : State) : (takeEvent (.fatal f) s).status = .faulted f := rfl
@[simp] theorem takeEvent_fatal_diag (f : FatalFault) (s : State) : (takeEvent (.fatal f) s).diag = s.diag := rfl

/-! ### output -/

@[simp] theorem output_cfg (s : State) : (output s).cfg = s.cfg := by unfold output; split <;> rfl
@[simp] theorem output_mem (s : State) : (output s).mem = s.mem := by unfold output; split <;> rfl
@[simp] theorem output_pc (s : State) : (output s).pc = s.pc := by unfold output; split <;> rfl
@[simp] theorem output_sp (s : State) : (output s).sp = s.sp := by unfold output; split <;> rfl
@[simp] theorem output_ac (s : State) : (output s).ac = s.ac := by unfold output; split <;> rfl
@[simp] theorem output_dr (s : State) : (output s).dr = s.dr := by unfold output; split <;> rfl
@[simp] theorem output_addr (s : State) : (output s).addr = s.addr := by unfold output; split <;> rfl
@[simp] theorem output_toMem (s : State) : (output s).toMem = s.toMem := by unfold output; split <;> rfl
@[simp] theorem output_ir (s : State) : (output s).ir = s.ir := by unfold output; split <;> rfl
@[simp] theorem output_ps (s : State) : (output s).ps = s.ps := by unfold output; split <;> rfl
@[simp] theorem output_alu (s : State) : (output s).alu = s.alu := by unfold output; split <;> rfl
@[simp] theorem output_aluInputs (s : State) : (output s).aluInputs = s.aluInputs := by unfold output; split <;> rfl
@[simp] theorem output_inBuf (s : State) : (output s).inBuf = s.inBuf := by unfold output; split <;> rfl
@[simp] theorem output_outBuf (s : State) :
    (output s).outBuf = if s.dr = outputPort then s.outBuf ++ [s.ac] else s.outBuf := by unfold output; split <;> rfl
@[simp] theorem output_tick (s : State) : (output s).tick = s.tick := by unfold output; split <;> rfl
@[simp] theorem output_instr (s : State) : (output s).instr = s.instr := by unfold output; split <;> rfl
@[simp] theorem output_status (s : State) : (output s).status = s.status := by unfold output; split <;> rfl
@[simp] theorem output_diag (s : State) : (output s).diag = s.diag := by unfold output; split <;> rfl

end Sys2Proof.Machine
end

