-- ==== Sys2Proof/Laws/Ops.lean ====
section
/-! SUPPORT. What each signal and each sequence of signals can do, said once (spec/41_datapath_signals.md,
spec/42_control_unit.md R121). -/

namespace Sys2Proof.Machine

/-! ### Sequencing -/

@[simp] theorem bind_done (s : State) (f : State → SignalResult) : (SignalResult.done s).bind f = f s := rfl

@[simp] theorem bind_raised (e : Event) (s : State) (f : State → SignalResult) :
    (SignalResult.raised e s).bind f = .raised e s := rfl

theorem bind_eq_done {r : SignalResult} {f : State → SignalResult} {t : State} :
    r.bind f = .done t ↔ ∃ u, r = .done u ∧ f u = .done t := by
  cases r <;> simp

theorem bind_eq_raised {r : SignalResult} {f : State → SignalResult} {e : Event} {t : State} :
    r.bind f = .raised e t ↔ r = .raised e t ∨ ∃ u, r = .done u ∧ f u = .raised e t := by
  cases r <;> simp

@[simp] theorem runOps_nil (s : State) : runOps [] s = .done s := rfl

@[simp] theorem runOps_cons (o : MicroOp) (os : List MicroOp) (s : State) :
    runOps (o :: os) s = (runOp o s).bind (runOps os) := rfl

@[simp] theorem runOp_signal (g : Signal) (s : State) : runOp (.signal g) s = runSignal g s := rfl

@[simp] theorem runOp_raiseHalt (s : State) : runOp .raiseHalt s = .raised (.halt .haltInstr) s := rfl

@[simp] theorem runMicroprogram_nil (s : State) : runMicroprogram [] s = .done s := rfl

@[simp] theorem runMicroprogram_cons (g : Group) (gs : Microprogram) (s : State) :
    runMicroprogram (g :: gs) s = (runGroup g s).bind (runMicroprogram gs) := rfl

@[simp] theorem settle_done (s : State) : settle (.done s) = retire s := rfl

@[simp] theorem settle_raised (e : Event) (s : State) : settle (.raised e s) = takeEvent e s := rfl

/-! ### The signals that can raise -/

theorem latchDr_of_read {s : State} {w : MachineWord} (h : memRead s s.addr = some w) :
    latchDr s = .done { s with dr := w.value } := by simp [latchDr, h]

theorem latchDr_of_fault {s : State} (h : memRead s s.addr = none) :
    latchDr s = .raised (.fatal (.addressFault s.addr)) s := by simp [latchDr, h]

theorem latchIr_of_read {s : State} {w : MachineWord} (h : memRead s s.addr = some w) :
    latchIr s = .done { s with ir := w } := by simp [latchIr, h]

theorem latchIr_of_fault {s : State} (h : memRead s s.addr = none) :
    latchIr s = .raised (.fatal (.addressFault s.addr)) s := by simp [latchIr, h]

theorem latchAc_of_input {s : State} {c : Int} {rest : List Int} (h : s.inBuf = c :: rest) :
    latchAc .fromInput s = .done { s with ac := c, inBuf := rest } := by simp [latchAc, h]

theorem latchAc_of_empty {s : State} (h : s.inBuf = []) :
    latchAc .fromInput s = .raised (.halt .inputExhausted) s := by simp [latchAc, h]

theorem writeMemory_of_index {s : State} {i : Nat} (h : writeIndex s.cfg.memorySize s.addr = some i) :
    writeMemory s = .done { s with mem := setCell i (.nopOf s.toMem) s.mem } := by simp [writeMemory, memWrite, h]

theorem writeMemory_of_fault {s : State} (h : writeIndex s.cfg.memorySize s.addr = none) :
    writeMemory s = .raised (.fatal (.addressFault s.addr)) s := by simp [writeMemory, memWrite, h]

/-- R82: an operation computes a value exactly when every operand it uses is present. -/
theorem aluValue_isSome (op : AluOp) (a b : Option Int) :
    (aluValue op a b).isSome = ((!op.usesA || a.isSome) && (!op.usesB || b.isSome)) := by
  cases op <;> cases a <;> cases b <;> rfl

/-! ### What a signal can do

A signal that is done has left one of these states; one that raises leaves the state as it was. -/

/-- R24, R101 to R112: the changes a signal may make, each to the fields its rule names. -/
inductive SignalChange (s : State) : State → Prop where
  | latchAddr : SignalChange s { s with addr := s.alu.result }
  | latchDr (w : MachineWord) (h : memRead s s.addr = some w) : SignalChange s { s with dr := w.value }
  | latchPc : SignalChange s { s with pc := wrap s s.alu.result }
  | latchSp : SignalChange s { s with sp := wrap s s.alu.result }
  | latchIr (w : MachineWord) (h : memRead s s.addr = some w) : SignalChange s { s with ir := w }
  | latchAc : SignalChange s { s with ac := s.alu.result }
  | readInput (c : Int) (rest : List Int) (h : s.inBuf = c :: rest) :
      SignalChange s { s with ac := c, inBuf := rest }
  | latchToMem : SignalChange s { s with toMem := s.alu.result }
  | latchPsFlags : SignalChange s { s with ps := s.alu.flags }
  | compute (op : AluOp) (a b : Option Int) (v : Int) (h : aluValue op a b = some v) :
      SignalChange s (aluWrite op a b v s)
  | output : SignalChange s (Machine.output s)
  | writeMemory (i : Nat) (h : writeIndex s.cfg.memorySize s.addr = some i) :
      SignalChange s { s with mem := setCell i (.nopOf s.toMem) s.mem }

theorem runSignal_change {g : Signal} {s t : State} (h : runSignal g s = .done t) : SignalChange s t := by
  cases g with
  | latchAddr => cases h; exact .latchAddr
  | latchDr =>
    simp only [runSignal, latchDr] at h
    split at h
    · next w hw => cases h; exact .latchDr w hw
    · cases h
  | latchPc => cases h; exact .latchPc
  | latchSp => cases h; exact .latchSp
  | latchIr =>
    simp only [runSignal, latchIr] at h
    split at h
    · next w hw => cases h; exact .latchIr w hw
    · cases h
  | latchAc sel =>
    cases sel with
    | fromAlu => cases h; exact .latchAc
    | fromInput =>
      simp only [runSignal, latchAc] at h
      split at h
      · cases h
      · next c rest hb => cases h; exact .readInput c rest hb
  | latchToMem => cases h; exact .latchToMem
  | latchPsFlags => cases h; exact .latchPsFlags
  | executeAluOp op l r =>
    simp only [runSignal, executeAluOp, aluCompute] at h
    split at h
    · next v hv => cases h; exact .compute op _ _ v hv
    · cases h
  | output => cases h; exact .output
  | writeMemory =>
    simp only [runSignal, writeMemory] at h
    split at h
    · next u hu =>
      cases h
      obtain ⟨i, hi, rfl⟩ := memWrite_eq_some.1 hu
      exact .writeMemory i hi
    · cases h

/-! ### One induction over a microprogram -/

/-- The state a sequence of signals has left, whether it is done or has raised. -/
def SignalResult.state : SignalResult → State
  | .done s => s
  | .raised _ s => s

/-- A relation that every signal keeps, done or raised, and that `tick()` keeps, holds between the state a microprogram
starts in and the state it leaves. -/
theorem runMicroprogram_rel {R : State → State → Prop} (refl : ∀ s, R s s)
    (trans : ∀ {a b c}, R a b → R b c → R a c) (signal : ∀ g s, R s (runSignal g s).state)
    (ticks : ∀ s, R s (tick s)) (m : Microprogram) (s : State) : R s (runMicroprogram m s).state := by
  have op : ∀ o s, R s (runOp o s).state := by
    intro o s
    cases o with
    | signal g => exact signal g s
    | raiseHalt => exact refl s
  have seq : ∀ {r : SignalResult} {f : State → SignalResult} {s : State}, R s r.state →
      (∀ u, R u (f u).state) → R s (r.bind f).state := by
    intro r f s hr hf
    cases r with
    | done u => exact trans hr (hf u)
    | raised e u => exact hr
  have ops : ∀ os s, R s (runOps os s).state := by
    intro os
    induction os with
    | nil => exact refl
    | cons o os ih => exact fun s => seq (op o s) ih
  have group : ∀ g s, R s (runGroup g s).state := fun g s => seq (ops g s) ticks
  induction m generalizing s with
  | nil => exact refl s
  | cons g gs ih => exact seq (group g s) ih

end Sys2Proof.Machine
end

