-- ==== Sys2Proof/Laws/Control.lean ====
section
/-! SUPPORT. What fetch, indirect resolution and the frame of an instruction do, said once, and exec of a decoded word
(spec/42_control_unit.md R122 to R125). -/

namespace Sys2Proof.Machine

/-- R122: what fetch of the word `w` leaves. -/
def fetched (w : MachineWord) (s : State) : State :=
  { s with
    pc := wrap s (s.pc + 1), addr := s.pc, ir := w, dr := w.value
    alu := ⟨s.pc + 1, flagsOf (s.pc + 1)⟩, aluInputs := ⟨none, some s.pc, some .incB⟩, tick := s.tick + 2 }

/-- R122, R105: what is left where the PC names no cell, which no sound state's does. -/
def fetchFaulted (s : State) : State :=
  { s with
    pc := wrap s (s.pc + 1), addr := s.pc
    alu := ⟨s.pc + 1, flagsOf (s.pc + 1)⟩, aluInputs := ⟨none, some s.pc, some .incB⟩, tick := s.tick + 1 }

theorem fetchT1_eq (s : State) : runGroup fetchT1 s =
    .done { s with
      addr := s.pc, alu := ⟨s.pc, flagsOf s.pc⟩, aluInputs := ⟨none, some s.pc, some .skipB⟩
      tick := s.tick + 1 } := rfl

theorem fetch_of_read {s : State} {w : MachineWord} (h : memRead s s.pc = some w) :
    fetch s = .done (fetched w s) := by
  simp only [memRead] at h
  simp only [fetch, runMicroprogram_cons, fetchT1_eq, bind_done]
  simp [runGroup, fetchT2, aluRight, runSignal, executeAluOp, aluCompute, aluValue, rightOperand, latchPc, latchIr,
    latchDr, memRead, h, fetched, aluWrite, aluStores, aluDiagnostics, tick, wrap]

theorem fetch_of_fault {s : State} (h : memRead s s.pc = none) :
    fetch s = .raised (.fatal (.addressFault s.pc)) (fetchFaulted s) := by
  simp only [memRead] at h
  simp only [fetch, runMicroprogram_cons, fetchT1_eq, bind_done]
  simp [runGroup, fetchT2, aluRight, runSignal, executeAluOp, aluCompute, aluValue, rightOperand, latchPc, latchIr,
    memRead, h, fetchFaulted, aluWrite, aluStores, aluDiagnostics, wrap]

/-- `enter` changes nothing on the state that fetch hands over, so exec there is R120's step after the fetch. -/
@[simp] theorem enter_fetched (w : MachineWord) (s : State) : enter w (fetched w s) = fetched w s := rfl

/-- R122, R123: the state in which the execute microprogram of `w` starts, with the operand `p` in DR. -/
def executeEntry (w : MachineWord) (p : Int) (s : State) : State :=
  if w.isIndirect then
    { s with
      ir := w, dr := p, addr := w.value, alu := ⟨w.value, flagsOf w.value⟩
      aluInputs := ⟨none, some w.value, some .skipB⟩, tick := s.tick + 2 }
  else enter w s

/-! What the execute microprogram finds in each field (R122, R123). -/

@[simp] theorem executeEntry_ir (w : MachineWord) (p : Int) (s : State) : (executeEntry w p s).ir = w := by
  unfold executeEntry; split <;> rfl

@[simp] theorem executeEntry_tick (w : MachineWord) (p : Int) (s : State) :
    (executeEntry w p s).tick = s.tick + if w.isIndirect then 2 else 0 := by
  unfold executeEntry; split <;> rfl

@[simp] theorem executeEntry_addr (w : MachineWord) (p : Int) (s : State) :
    (executeEntry w p s).addr = if w.isIndirect then w.value else s.addr := by
  unfold executeEntry; split <;> rfl

@[simp] theorem executeEntry_alu (w : MachineWord) (p : Int) (s : State) :
    (executeEntry w p s).alu = if w.isIndirect then ⟨w.value, flagsOf w.value⟩ else s.alu := by
  unfold executeEntry; split <;> rfl

@[simp] theorem executeEntry_cfg (w : MachineWord) (p : Int) (s : State) : (executeEntry w p s).cfg = s.cfg := by
  unfold executeEntry; split <;> rfl

@[simp] theorem executeEntry_mem (w : MachineWord) (p : Int) (s : State) : (executeEntry w p s).mem = s.mem := by
  unfold executeEntry; split <;> rfl

@[simp] theorem executeEntry_pc (w : MachineWord) (p : Int) (s : State) : (executeEntry w p s).pc = s.pc := by
  unfold executeEntry; split <;> rfl

@[simp] theorem executeEntry_sp (w : MachineWord) (p : Int) (s : State) : (executeEntry w p s).sp = s.sp := by
  unfold executeEntry; split <;> rfl

@[simp] theorem executeEntry_ac (w : MachineWord) (p : Int) (s : State) : (executeEntry w p s).ac = s.ac := by
  unfold executeEntry; split <;> rfl

@[simp] theorem executeEntry_toMem (w : MachineWord) (p : Int) (s : State) : (executeEntry w p s).toMem = s.toMem := by
  unfold executeEntry; split <;> rfl

@[simp] theorem executeEntry_ps (w : MachineWord) (p : Int) (s : State) : (executeEntry w p s).ps = s.ps := by
  unfold executeEntry; split <;> rfl

@[simp] theorem executeEntry_inBuf (w : MachineWord) (p : Int) (s : State) : (executeEntry w p s).inBuf = s.inBuf := by
  unfold executeEntry; split <;> rfl

@[simp] theorem executeEntry_outBuf (w : MachineWord) (p : Int) (s : State) : (executeEntry w p s).outBuf = s.outBuf := by
  unfold executeEntry; split <;> rfl

@[simp] theorem executeEntry_instr (w : MachineWord) (p : Int) (s : State) : (executeEntry w p s).instr = s.instr := by
  unfold executeEntry; split <;> rfl

@[simp] theorem executeEntry_status (w : MachineWord) (p : Int) (s : State) : (executeEntry w p s).status = s.status := by
  unfold executeEntry; split <;> rfl

@[simp] theorem executeEntry_diag (w : MachineWord) (p : Int) (s : State) : (executeEntry w p s).diag = s.diag := by
  unfold executeEntry; split <;> rfl

theorem indirectT1_eq (s : State) : runGroup indirectT1 s =
    .done { s with
      addr := s.dr, alu := ⟨s.dr, flagsOf s.dr⟩, aluInputs := ⟨none, some s.dr, some .skipB⟩
      tick := s.tick + 1 } := rfl

theorem indirectResolve_of_read {s : State} {w : MachineWord} (h : memRead s s.dr = some w) :
    indirectResolve s =
      .done { s with
        dr := w.value, addr := s.dr, alu := ⟨s.dr, flagsOf s.dr⟩, aluInputs := ⟨none, some s.dr, some .skipB⟩
        tick := s.tick + 2 } := by
  simp only [memRead] at h
  simp only [indirectResolve, runMicroprogram_cons, indirectT1_eq, bind_done]
  simp [runGroup, indirectT2, runSignal, latchDr, memRead, h, tick]

theorem indirectResolve_of_fault {s : State} (h : memRead s s.dr = none) :
    indirectResolve s =
      .raised (.fatal (.addressFault s.dr)) { s with
        addr := s.dr, alu := ⟨s.dr, flagsOf s.dr⟩, aluInputs := ⟨none, some s.dr, some .skipB⟩
        tick := s.tick + 1 } := by
  simp only [memRead] at h
  simp only [indirectResolve, runMicroprogram_cons, indirectT1_eq, bind_done]
  simp [runGroup, indirectT2, runSignal, latchDr, memRead, h]

/-- The operand of an instruction resolves to `p`: directly, or through an admitted read. -/
theorem operandOf_eq_some {s : State} {v : Int} {ind : Bool} {p : Int} :
    operandOf s v ind = some p ↔
      (ind = false ∧ p = v) ∨ (ind = true ∧ ∃ w, memRead s v = some w ∧ p = w.value) := by
  cases ind <;> simp [operandOf, eq_comm]

/-- Only an indirect operand can fail to resolve. -/
theorem operandOf_eq_none {s : State} {v : Int} {ind : Bool} :
    operandOf s v ind = none ↔ ind = true ∧ memRead s v = none := by
  cases ind <;> simp [operandOf]

/-- DR holds the operand when execute starts (R67). -/
theorem executeEntry_dr {w : MachineWord} {s : State} {p : Int} (h : operandOf s w.value w.isIndirect = some p) :
    (executeEntry w p s).dr = p := by
  unfold executeEntry
  split
  · rfl
  · next hi => rcases operandOf_eq_some.1 h with ⟨_, rfl⟩ | ⟨hi', _⟩ <;> simp_all [enter]

/-- A read in execute sees the memory that the instruction started with. -/
@[simp] theorem memRead_executeEntry (w : MachineWord) (p : Int) (s : State) (a : Int) :
    memRead (executeEntry w p s) a = memRead s a := memRead_congr (by simp) (by simp) a

/-- An instruction whose operand resolves runs its microprogram from `executeEntry` and then ends (R120). -/
theorem runInstr_of_operand {w : MachineWord} {s : State} {p : Int} (micro : State → Microprogram)
    (h : operandOf s w.value w.isIndirect = some p) :
    runInstr w micro s =
      .next (settle (runMicroprogram (micro (executeEntry w p s)) (executeEntry w p s))) := by
  rcases operandOf_eq_some.1 h with ⟨hi, rfl⟩ | ⟨hi, u, hu, rfl⟩
  · simp [runInstr, afterFetch, executeEntry, hi]
  · have hu' : memRead (enter w s) (enter w s).dr = some u := hu
    simp only [runInstr, afterFetch, hi, if_true, indirectResolve_of_read hu', bind_done]
    congr 3 <;> simp [executeEntry, hi, enter]

/-- An instruction whose operand does not resolve takes the AddressFault of indirect resolution (R123, R181). -/
theorem runInstr_of_operand_fault {w : MachineWord} {s : State} (micro : State → Microprogram)
    (h : operandOf s w.value w.isIndirect = none) :
    runInstr w micro s =
      .next { s with
        ir := w, dr := w.value, addr := w.value, alu := ⟨w.value, flagsOf w.value⟩
        aluInputs := ⟨none, some w.value, some .skipB⟩, tick := s.tick + 1
        status := .faulted (.addressFault w.value) } := by
  obtain ⟨hi, hn⟩ := operandOf_eq_none.1 h
  have hn' : memRead (enter w s) (enter w s).dr = none := hn
  simp only [runInstr, afterFetch, hi, if_true, indirectResolve_of_fault hn', bind_raised, settle_raised]
  rfl

/-- R124: the execute microprogram of an opcode. -/
def executeMicro (op : Opcode) (s : State) : Microprogram :=
  match op with
  | .nop => [nopX1]
  | .inc => [incX1]
  | .dec => [decX1]
  | .halt => [haltX0]
  | .push => [pushX1, pushX2]
  | .pop => [popX1, popX2, popX3]
  | .load => [operandX1, loadX2]
  | .store => [operandX1, storeX2]
  | .add => [operandX1, arithX2 .add]
  | .sub => [operandX1, arithX2 .sub]
  | .mul => [operandX1, arithX2 .mul]
  | .div => [operandX1, arithX2 .div]
  | .out => [operandX1, outX2]
  | .input => [inX1]
  | .cmp => [operandX1, compareX2 .cmp]
  | .test => [operandX1, compareX2 .test]
  | .jg => [branchX1 (jgTaken s) s]
  | .jz => [branchX1 (jzTaken s) s]
  | .jnz => [branchX1 (jnzTaken s) s]
  | .jmp => [branchX1 (jmpTaken s) s]

/-- exec of a decoded word is the common frame with the opcode's microprogram. -/
theorem exec_decodeWord (w : MachineWord) (s : State) :
    exec (decodeWord w) s = runInstr w (executeMicro w.opcode) s := by
  obtain ⟨op, v, i⟩ := w
  cases op <;> rfl

/-- An ALU command whose operands are all present computes and does nothing else (R80). -/
theorem runAluCommand_of_value {op : AluOp} {a b : Option Int} {v : Int} (s : State) (h : aluValue op a b = some v) :
    runAluCommand op a b s = .next (aluWrite op a b v s) := by
  simp [runAluCommand, aluCompute, h]

end Sys2Proof.Machine
end

