-- ==== Sys2Proof/Laws/Groups.lean ====
section
/-! SUPPORT. What each group of signals of the execute microprograms does, tick by tick (spec/43_nullary.md,
spec/44_operand.md, spec/45_branch.md). -/

namespace Sys2Proof.Machine

/-! ### Nullary -/

theorem nopX1_eq (s : State) : runGroup nopX1 s = .done { s with tick := s.tick + 1 } := rfl

theorem incX1_eq (s : State) : runGroup incX1 s =
    .done { s with
      ac := s.ac + 1, alu := ⟨s.ac + 1, flagsOf (s.ac + 1)⟩, aluInputs := ⟨some s.ac, none, some .incA⟩
      tick := s.tick + 1 } := rfl

theorem decX1_eq (s : State) : runGroup decX1 s =
    .done { s with
      ac := s.ac - 1, alu := ⟨s.ac - 1, flagsOf (s.ac - 1)⟩, aluInputs := ⟨some s.ac, none, some .decA⟩
      tick := s.tick + 1 } := rfl

theorem haltX0_eq (s : State) : runGroup haltX0 s = .raised (.halt .haltInstr) s := rfl

theorem pushX1_eq (s : State) : runGroup pushX1 s =
    .done { s with
      sp := wrap s (s.sp - 1), addr := s.sp - 1, alu := ⟨s.sp - 1, flagsOf (s.sp - 1)⟩
      aluInputs := ⟨none, some s.sp, some .decB⟩, tick := s.tick + 1 } := rfl

theorem pushX2_of_index {s : State} {i : Nat} (h : writeIndex s.cfg.memorySize s.addr = some i) :
    runGroup pushX2 s =
      .done { s with
        toMem := s.ac, mem := setCell i (.nopOf s.ac) s.mem, alu := ⟨s.ac, flagsOf s.ac⟩
        aluInputs := ⟨some s.ac, none, some .skipA⟩, tick := s.tick + 1 } := by
  simp [runGroup, pushX2, aluLeft, runSignal, executeAluOp, aluCompute, aluValue, leftOperand, latchToMem, writeMemory,
    memWrite, h, aluWrite, aluStores, aluDiagnostics, tick]

theorem popX1_eq (s : State) : runGroup popX1 s =
    .done { s with
      addr := s.sp, alu := ⟨s.sp, flagsOf s.sp⟩, aluInputs := ⟨none, some s.sp, some .skipB⟩
      tick := s.tick + 1 } := rfl

theorem popX2_of_read {s : State} {w : MachineWord} (h : memRead s s.addr = some w) :
    runGroup popX2 s =
      .done { s with
        sp := wrap s (s.sp + 1), dr := w.value, alu := ⟨s.sp + 1, flagsOf (s.sp + 1)⟩
        aluInputs := ⟨none, some s.sp, some .incB⟩, tick := s.tick + 1 } := by
  simp only [memRead] at h
  simp [runGroup, popX2, aluRight, runSignal, executeAluOp, aluCompute, aluValue, rightOperand, latchSp, latchDr,
    memRead, h, aluWrite, aluStores, aluDiagnostics, tick, wrap]

theorem popX2_of_fault {s : State} (h : memRead s s.addr = none) :
    runGroup popX2 s =
      .raised (.fatal (.addressFault s.addr)) { s with
        sp := wrap s (s.sp + 1), alu := ⟨s.sp + 1, flagsOf (s.sp + 1)⟩
        aluInputs := ⟨none, some s.sp, some .incB⟩ } := by
  simp only [memRead] at h
  simp [runGroup, popX2, aluRight, runSignal, executeAluOp, aluCompute, aluValue, rightOperand, latchSp, latchDr,
    memRead, h, aluWrite, aluStores, aluDiagnostics, wrap]

theorem popX3_eq (s : State) : runGroup popX3 s =
    .done { s with
      ac := s.dr, alu := ⟨s.dr, flagsOf s.dr⟩, aluInputs := ⟨none, some s.dr, some .skipB⟩
      tick := s.tick + 1 } := rfl

/-! ### The operand class -/

theorem operandX1_eq (s : State) : runGroup operandX1 s =
    .done { s with
      addr := s.dr, alu := ⟨s.dr, flagsOf s.dr⟩, aluInputs := ⟨none, some s.dr, some .skipB⟩
      tick := s.tick + 1 } := rfl

theorem loadX2_of_read {s : State} {w : MachineWord} (h : memRead s s.addr = some w) :
    runGroup loadX2 s =
      .done { s with
        dr := w.value, ac := w.value, alu := ⟨w.value, flagsOf w.value⟩
        aluInputs := ⟨none, some w.value, some .skipB⟩, tick := s.tick + 1 } := by
  simp only [memRead] at h
  simp [runGroup, loadX2, aluRight, runSignal, executeAluOp, aluCompute, aluValue, rightOperand, latchAc, latchDr,
    memRead, h, aluWrite, aluStores, aluDiagnostics, tick]

/-- A group whose first signal is latch_dr raises, and does nothing else, where the read is not admitted. -/
theorem group_of_latchDr_fault {s : State} (rest : List MicroOp) (h : memRead s s.addr = none) :
    runGroup (.signal .latchDr :: rest) s = .raised (.fatal (.addressFault s.addr)) s := by
  simp [runGroup, runSignal, latchDr_of_fault h]

theorem storeX2_of_index {s : State} {i : Nat} (h : writeIndex s.cfg.memorySize s.addr = some i) :
    runGroup storeX2 s =
      .done { s with
        toMem := s.ac, mem := setCell i (.nopOf s.ac) s.mem, alu := ⟨s.ac, flagsOf s.ac⟩
        aluInputs := ⟨some s.ac, none, some .skipA⟩, tick := s.tick + 1 } := by
  simp [runGroup, storeX2, aluLeft, runSignal, executeAluOp, aluCompute, aluValue, leftOperand, latchToMem, writeMemory,
    memWrite, h, aluWrite, aluStores, aluDiagnostics, tick]

theorem storeX2_of_fault {s : State} (h : writeIndex s.cfg.memorySize s.addr = none) :
    runGroup storeX2 s =
      .raised (.fatal (.addressFault s.addr)) { s with
        toMem := s.ac, alu := ⟨s.ac, flagsOf s.ac⟩, aluInputs := ⟨some s.ac, none, some .skipA⟩ } := by
  simp [runGroup, storeX2, aluLeft, runSignal, executeAluOp, aluCompute, aluValue, leftOperand, latchToMem, writeMemory,
    memWrite, h, aluWrite, aluStores, aluDiagnostics]

/-- The second tick of add, sub, mul and div: the value of `op` on AC and the operand read, into AC. -/
theorem arithX2_of_read {s : State} {w : MachineWord} {op : AluOp} {v : Int} (h : memRead s s.addr = some w)
    (hv : aluValue op (some s.ac) (some w.value) = some v) (hs : aluStores op = true) :
    runGroup (arithX2 op) s =
      .done { s with
        dr := w.value, ac := v, alu := ⟨v, flagsOf v⟩, aluInputs := ⟨some s.ac, some w.value, some op⟩
        tick := s.tick + 1, diag := aluDiagnostics op (some w.value) s.diag } := by
  simp only [memRead] at h
  simp [runGroup, arithX2, aluBoth, runSignal, executeAluOp, aluCompute, leftOperand, rightOperand, latchAc, latchDr,
    memRead, h, hv, hs, aluWrite, tick]

/-- The second tick of cmp and test: the flags of the value, and ALU.result as it was. -/
theorem compareX2_of_read {s : State} {w : MachineWord} {op : AluOp} {v : Int} (h : memRead s s.addr = some w)
    (hv : aluValue op (some s.ac) (some w.value) = some v) (hs : aluStores op = false) :
    runGroup (compareX2 op) s =
      .done { s with
        dr := w.value, alu := ⟨s.alu.result, flagsOf v⟩, aluInputs := ⟨some s.ac, some w.value, some op⟩
        tick := s.tick + 1, diag := aluDiagnostics op (some w.value) s.diag } := by
  simp only [memRead] at h
  simp [runGroup, compareX2, aluBoth, runSignal, executeAluOp, aluCompute, leftOperand, rightOperand, latchDr,
    memRead, h, hv, hs, aluWrite, tick]

theorem outX2_eq (s : State) : runGroup outX2 s =
    .done { s with outBuf := if s.dr = outputPort then s.outBuf ++ [s.ac] else s.outBuf, tick := s.tick + 1 } := by
  simp only [runGroup, outX2, runOps_cons, runOp_signal, runSignal, bind_done, runOps_nil, output, tick]
  split <;> rfl

theorem inX1_of_input {s : State} {c : Int} {rest : List Int} (h : s.inBuf = c :: rest) :
    runGroup inX1 s = .done { s with ac := c, inBuf := rest, tick := s.tick + 1 } := by
  simp [runGroup, inX1, runSignal, latchAc, h, tick]

theorem inX1_of_empty {s : State} (h : s.inBuf = []) :
    runGroup inX1 s = .raised (.halt .inputExhausted) s := by
  simp [runGroup, inX1, runSignal, latchAc, h]

/-! ### Branches -/

theorem branchX1_taken (s : State) : runGroup (branchX1 true s) s =
    .done { s with
      pc := wrap s s.dr, alu := ⟨s.dr, flagsOf s.dr⟩, aluInputs := ⟨none, some s.dr, some .skipB⟩
      tick := s.tick + 1 } := rfl

theorem branchX1_driven {s : State} (h : s.cfg.branchAluAlways = true) : runGroup (branchX1 false s) s =
    .done { s with
      alu := ⟨s.dr, flagsOf s.dr⟩, aluInputs := ⟨none, some s.dr, some .skipB⟩, tick := s.tick + 1 } := by
  simp [runGroup, branchX1, h, aluRight, runSignal, executeAluOp, aluCompute, aluValue, rightOperand, aluWrite,
    aluStores, aluDiagnostics, tick]

theorem branchX1_idle {s : State} (h : s.cfg.branchAluAlways = false) : runGroup (branchX1 false s) s =
    .done { s with tick := s.tick + 1 } := by
  simp [runGroup, branchX1, h, tick]

end Sys2Proof.Machine
end

