-- ==== Sys2Proof/Laws/Step.lean ====
section
/-! SUPPORT. All that one step can do (spec/42_control_unit.md R120). -/

namespace Sys2Proof.Machine

/-- A step that answers a next state ran from a running state, and either stopped at the limit, or ran the instruction
of the word at PC, or faulted because the PC names no cell. -/
theorem step_next_cases {s t : State} (h : step s = .next t) :
    s.status = .running ∧
      ((s.cfg.limit ≤ s.instr ∧ t = reachLimit s) ∨
        (s.instr < s.cfg.limit ∧ ∃ w, memRead s s.pc = some w ∧
          runInstr w (executeMicro w.opcode) (fetched w s) = .next t) ∨
        (s.instr < s.cfg.limit ∧ memRead s s.pc = none ∧
          t = takeEvent (.fatal (.addressFault s.pc)) (fetchFaulted s))) := by
  unfold step at h
  split at h
  · next hs =>
    refine ⟨hs, ?_⟩
    split at h
    · next hl => cases h; exact .inl ⟨hl, rfl⟩
    · next hl =>
      cases hw : memRead s s.pc with
      | some w =>
        rw [fetch_of_read hw] at h
        exact .inr (.inl ⟨by omega, w, rfl, by rw [← exec_decodeWord]; exact h⟩)
      | none =>
        rw [fetch_of_fault hw] at h
        cases h
        exact .inr (.inr ⟨by omega, rfl, rfl⟩)
  · cases h
  · cases h
  · cases h

/-- A run that is over has no next state. -/
theorem step_ne_next_of_over {s : State} (h : s.status ≠ .running) (t : State) : step s ≠ .next t :=
  fun ht => h (step_next_cases ht).1

end Sys2Proof.Machine
end

