-- ==== Sys2Proof/Laws/Execute.lean ====
section
/-! SUPPORT. All the ends that the execute phase of each opcode has, said once: what is left by the microprogram of R124
and by the flag latch or the event that follows it. A statement about every step is a case analysis over `ExecuteEnd`. -/

namespace Sys2Proof.Machine

/-- R151, R153 to R158: the opcodes whose X2 starts with a read of the operand's cell. -/
def readsOperand : Opcode → Bool
  | .load | .add | .sub | .mul | .div | .cmp | .test => true
  | .nop | .inc | .dec | .halt | .push | .pop | .store | .out | .input | .jg | .jz | .jnz | .jmp => false

/-- R170: the conditional branches. -/
def isConditional : Opcode → Bool
  | .jg | .jz | .jnz => true
  | .nop | .inc | .dec | .halt | .push | .pop | .load | .store | .add | .sub | .mul | .div | .out | .input | .cmp
  | .test | .jmp => false

/-- R170: the condition of a branch, as the opcode's own meaning has it. -/
def branchesIn : Opcode → State → Bool
  | .jg, u => jgTaken u
  | .jz, u => jzTaken u
  | .jnz, u => jnzTaken u
  | .jmp, _ => true
  | .nop, _ | .inc, _ | .dec, _ | .halt, _ | .push, _ | .pop, _ | .load, _ | .store, _ | .add, _ | .sub, _ | .mul, _
  | .div, _ | .out, _ | .input, _ | .cmp, _ | .test, _ => false

/-- R140 to R175: the states that the execute phase of an opcode, started in `u`, can leave. -/
inductive ExecuteEnd (u : State) : Opcode → State → Prop where
  | nop : ExecuteEnd u .nop (retire { u with tick := u.tick + 1 })
  | inc : ExecuteEnd u .inc (retire { u with
      ac := u.ac + 1, alu := ⟨u.ac + 1, flagsOf (u.ac + 1)⟩, aluInputs := ⟨some u.ac, none, some .incA⟩,
      tick := u.tick + 1 })
  | dec : ExecuteEnd u .dec (retire { u with
      ac := u.ac - 1, alu := ⟨u.ac - 1, flagsOf (u.ac - 1)⟩, aluInputs := ⟨some u.ac, none, some .decA⟩,
      tick := u.tick + 1 })
  | halt : ExecuteEnd u .halt (takeEvent (.halt .haltInstr) u)
  | push (i : Nat) (h : writeIndex u.cfg.memorySize (u.sp - 1) = some i) : ExecuteEnd u .push (retire { u with
      sp := wrap u (u.sp - 1), addr := u.sp - 1, toMem := u.ac, mem := setCell i (.nopOf u.ac) u.mem,
      alu := ⟨u.ac, flagsOf u.ac⟩, aluInputs := ⟨some u.ac, none, some .skipA⟩, tick := u.tick + 2 })
  | pushFault (h : writeIndex u.cfg.memorySize (u.sp - 1) = none) : ExecuteEnd u .push
      (takeEvent (.fatal (.addressFault (u.sp - 1))) { u with
        sp := wrap u (u.sp - 1), addr := u.sp - 1, toMem := u.ac, alu := ⟨u.ac, flagsOf u.ac⟩,
        aluInputs := ⟨some u.ac, none, some .skipA⟩, tick := u.tick + 1 })
  | pop (w : MachineWord) (h : memRead u u.sp = some w) : ExecuteEnd u .pop (retire { u with
      addr := u.sp, sp := wrap u (u.sp + 1), dr := w.value, ac := w.value, alu := ⟨w.value, flagsOf w.value⟩,
      aluInputs := ⟨none, some w.value, some .skipB⟩, tick := u.tick + 3 })
  | popFault (h : memRead u u.sp = none) : ExecuteEnd u .pop (takeEvent (.fatal (.addressFault u.sp)) { u with
      addr := u.sp, sp := wrap u (u.sp + 1), alu := ⟨u.sp + 1, flagsOf (u.sp + 1)⟩,
      aluInputs := ⟨none, some u.sp, some .incB⟩, tick := u.tick + 1 })
  | load (w : MachineWord) (h : memRead u u.dr = some w) : ExecuteEnd u .load (retire { u with
      addr := u.dr, dr := w.value, ac := w.value, alu := ⟨w.value, flagsOf w.value⟩,
      aluInputs := ⟨none, some w.value, some .skipB⟩, tick := u.tick + 2 })
  | store (i : Nat) (h : writeIndex u.cfg.memorySize u.dr = some i) : ExecuteEnd u .store (retire { u with
      addr := u.dr, toMem := u.ac, mem := setCell i (.nopOf u.ac) u.mem, alu := ⟨u.ac, flagsOf u.ac⟩,
      aluInputs := ⟨some u.ac, none, some .skipA⟩, tick := u.tick + 2 })
  | storeFault (h : writeIndex u.cfg.memorySize u.dr = none) : ExecuteEnd u .store
      (takeEvent (.fatal (.addressFault u.dr)) { u with
        addr := u.dr, toMem := u.ac, alu := ⟨u.ac, flagsOf u.ac⟩, aluInputs := ⟨some u.ac, none, some .skipA⟩,
        tick := u.tick + 1 })
  | add (w : MachineWord) (h : memRead u u.dr = some w) : ExecuteEnd u .add (retire { u with
      addr := u.dr, dr := w.value, ac := u.ac + w.value, alu := ⟨u.ac + w.value, flagsOf (u.ac + w.value)⟩,
      aluInputs := ⟨some u.ac, some w.value, some .add⟩, tick := u.tick + 2 })
  | sub (w : MachineWord) (h : memRead u u.dr = some w) : ExecuteEnd u .sub (retire { u with
      addr := u.dr, dr := w.value, ac := u.ac - w.value, alu := ⟨u.ac - w.value, flagsOf (u.ac - w.value)⟩,
      aluInputs := ⟨some u.ac, some w.value, some .sub⟩, tick := u.tick + 2 })
  | mul (w : MachineWord) (h : memRead u u.dr = some w) : ExecuteEnd u .mul (retire { u with
      addr := u.dr, dr := w.value, ac := u.ac * w.value, alu := ⟨u.ac * w.value, flagsOf (u.ac * w.value)⟩,
      aluInputs := ⟨some u.ac, some w.value, some .mul⟩, tick := u.tick + 2 })
  | div (w : MachineWord) (h : memRead u u.dr = some w) (hz : w.value ≠ 0) : ExecuteEnd u .div (retire { u with
      addr := u.dr, dr := w.value, ac := floorDiv u.ac w.value,
      alu := ⟨floorDiv u.ac w.value, flagsOf (floorDiv u.ac w.value)⟩,
      aluInputs := ⟨some u.ac, some w.value, some .div⟩, tick := u.tick + 2 })
  | divByZero (w : MachineWord) (h : memRead u u.dr = some w) (hz : w.value = 0) : ExecuteEnd u .div (retire { u with
      addr := u.dr, dr := 0, ac := 0, alu := ⟨0, flagsOf 0⟩, aluInputs := ⟨some u.ac, some 0, some .div⟩,
      tick := u.tick + 2, diag := u.diag ++ [.divByZero] })
  | cmp (w : MachineWord) (h : memRead u u.dr = some w) : ExecuteEnd u .cmp (retire { u with
      addr := u.dr, dr := w.value, alu := ⟨u.dr, flagsOf (u.ac - w.value)⟩,
      aluInputs := ⟨some u.ac, some w.value, some .cmp⟩, tick := u.tick + 2 })
  | test (w : MachineWord) (h : memRead u u.dr = some w) : ExecuteEnd u .test (retire { u with
      addr := u.dr, dr := w.value, alu := ⟨u.dr, flagsOf (bitAnd u.ac w.value)⟩,
      aluInputs := ⟨some u.ac, some w.value, some .test⟩, tick := u.tick + 2 })
  | readFault (op : Opcode) (hop : readsOperand op = true) (h : memRead u u.dr = none) : ExecuteEnd u op
      (takeEvent (.fatal (.addressFault u.dr)) { u with
        addr := u.dr, alu := ⟨u.dr, flagsOf u.dr⟩, aluInputs := ⟨none, some u.dr, some .skipB⟩,
        tick := u.tick + 1 })
  | out : ExecuteEnd u .out (retire { u with
      addr := u.dr, alu := ⟨u.dr, flagsOf u.dr⟩, aluInputs := ⟨none, some u.dr, some .skipB⟩, tick := u.tick + 2,
      outBuf := if u.dr = outputPort then u.outBuf ++ [u.ac] else u.outBuf })
  | input (c : Int) (rest : List Int) (h : u.inBuf = c :: rest) : ExecuteEnd u .input (retire { u with
      ac := c, inBuf := rest, tick := u.tick + 1 })
  | inputExhausted (h : u.inBuf = []) : ExecuteEnd u .input (takeEvent (.halt .inputExhausted) u)
  | taken (op : Opcode) (h : branchesIn op u = true) : ExecuteEnd u op (retire { u with
      pc := wrap u u.dr, alu := ⟨u.dr, flagsOf u.dr⟩, aluInputs := ⟨none, some u.dr, some .skipB⟩,
      tick := u.tick + 1 })
  | notTaken (op : Opcode) (h : branchesIn op u = false) (hop : isConditional op = true)
      (hc : u.cfg.branchAluAlways = true) : ExecuteEnd u op (retire { u with
      alu := ⟨u.dr, flagsOf u.dr⟩, aluInputs := ⟨none, some u.dr, some .skipB⟩, tick := u.tick + 1 })
  | notTakenIdle (op : Opcode) (h : branchesIn op u = false) (hop : isConditional op = true)
      (hc : u.cfg.branchAluAlways = false) : ExecuteEnd u op (retire { u with tick := u.tick + 1 })

/-- The operand class but for out and in: a first tick that latches Addr, then a group that may fault on its read. -/
theorem settle_read_fault {op : Opcode} (u : State) (rest : List MicroOp) (hop : readsOperand op = true)
    (h : memRead u u.dr = none) :
    ExecuteEnd u op (settle (runMicroprogram [operandX1, .signal .latchDr :: rest] u)) := by
  simp only [runMicroprogram_cons, operandX1_eq, bind_done]
  rw [group_of_latchDr_fault _ (by rw [← h]; rfl)]
  exact .readFault op hop h

/-- The end of add, sub, mul and div whose operand is read. -/
theorem settle_arith {op : AluOp} {w : MachineWord} {v : Int} (u : State) (h : memRead u u.dr = some w)
    (hv : aluValue op (some u.ac) (some w.value) = some v) (hs : aluStores op = true) :
    settle (runMicroprogram [operandX1, arithX2 op] u) = retire { u with
      addr := u.dr, dr := w.value, ac := v, alu := ⟨v, flagsOf v⟩, aluInputs := ⟨some u.ac, some w.value, some op⟩,
      tick := u.tick + 2, diag := aluDiagnostics op (some w.value) u.diag } := by
  simp only [runMicroprogram_cons, operandX1_eq, bind_done]
  rw [arithX2_of_read (w := w) (op := op) (v := v) (by rw [← h]; rfl) (by exact hv) hs]
  rfl

/-- The end of cmp and test whose operand is read. -/
theorem settle_compare {op : AluOp} {w : MachineWord} {v : Int} (u : State) (h : memRead u u.dr = some w)
    (hv : aluValue op (some u.ac) (some w.value) = some v) (hs : aluStores op = false) :
    settle (runMicroprogram [operandX1, compareX2 op] u) = retire { u with
      addr := u.dr, dr := w.value, alu := ⟨u.dr, flagsOf v⟩, aluInputs := ⟨some u.ac, some w.value, some op⟩,
      tick := u.tick + 2, diag := aluDiagnostics op (some w.value) u.diag } := by
  simp only [runMicroprogram_cons, operandX1_eq, bind_done]
  rw [compareX2_of_read (w := w) (op := op) (v := v) (by rw [← h]; rfl) (by exact hv) hs]
  rfl

/-- The ends of a conditional branch. -/
theorem settle_branch {op : Opcode} (u : State) (hop : isConditional op = true) :
    ExecuteEnd u op (settle (runMicroprogram [branchX1 (branchesIn op u) u] u)) := by
  cases hb : branchesIn op u
  · cases hc : u.cfg.branchAluAlways
    · simp only [runMicroprogram_cons, branchX1_idle hc]
      exact .notTakenIdle op hb hop hc
    · simp only [runMicroprogram_cons, branchX1_driven hc]
      exact .notTaken op hb hop hc
  · simp only [runMicroprogram_cons, branchX1_taken]
    exact .taken op hb

/-- Every execute phase ends in one of these ways. -/
theorem executeEnd (op : Opcode) (u : State) : ExecuteEnd u op (settle (runMicroprogram (executeMicro op u) u)) := by
  cases op with
  | nop => exact .nop
  | inc => exact .inc
  | dec => exact .dec
  | halt => exact .halt
  | push =>
    simp only [executeMicro, runMicroprogram_cons, pushX1_eq, bind_done]
    cases h : writeIndex u.cfg.memorySize (u.sp - 1) with
    | some i =>
      rw [pushX2_of_index (i := i) (by exact h)]
      exact .push i h
    | none =>
      have h' := ExecuteEnd.pushFault h
      convert h' using 1
      simp [runGroup, pushX2, aluLeft, runSignal, executeAluOp, aluCompute, aluValue, leftOperand, latchToMem,
        writeMemory, memWrite, h, aluWrite, aluStores, tick, aluDiagnostics]
  | pop =>
    simp only [executeMicro, runMicroprogram_cons, popX1_eq, bind_done]
    cases h : memRead u u.sp with
    | some w =>
      rw [popX2_of_read (w := w) (by rw [← h]; rfl)]
      exact .pop w h
    | none =>
      rw [popX2_of_fault (by rw [← h]; rfl)]
      exact .popFault h
  | load =>
    cases h : memRead u u.dr with
    | some w =>
      simp only [executeMicro, runMicroprogram_cons, operandX1_eq, bind_done]
      rw [loadX2_of_read (w := w) (by rw [← h]; rfl)]
      exact .load w h
    | none => exact settle_read_fault u _ rfl h
  | store =>
    simp only [executeMicro, runMicroprogram_cons, operandX1_eq, bind_done]
    cases h : writeIndex u.cfg.memorySize u.dr with
    | some i =>
      rw [storeX2_of_index (i := i) (by exact h)]
      exact .store i h
    | none =>
      rw [storeX2_of_fault (by exact h)]
      exact .storeFault h
  | add =>
    cases h : memRead u u.dr with
    | some w => exact (settle_arith u h rfl rfl : settle (runMicroprogram (executeMicro .add u) u) = _) ▸ .add w h
    | none => exact settle_read_fault u _ rfl h
  | sub =>
    cases h : memRead u u.dr with
    | some w => exact (settle_arith u h rfl rfl : settle (runMicroprogram (executeMicro .sub u) u) = _) ▸ .sub w h
    | none => exact settle_read_fault u _ rfl h
  | mul =>
    cases h : memRead u u.dr with
    | some w => exact (settle_arith u h rfl rfl : settle (runMicroprogram (executeMicro .mul u) u) = _) ▸ .mul w h
    | none => exact settle_read_fault u _ rfl h
  | div =>
    cases h : memRead u u.dr with
    | some w =>
      have e : settle (runMicroprogram (executeMicro .div u) u) = _ := settle_arith (op := .div) u h rfl rfl
      rw [e]
      by_cases hz : w.value = 0
      · simpa [hz, aluDiagnostics] using ExecuteEnd.divByZero w h hz
      · simpa [hz, aluDiagnostics] using ExecuteEnd.div w h hz
    | none => exact settle_read_fault u _ rfl h
  | cmp =>
    cases h : memRead u u.dr with
    | some w => exact (settle_compare u h rfl rfl : settle (runMicroprogram (executeMicro .cmp u) u) = _) ▸ .cmp w h
    | none => exact settle_read_fault u _ rfl h
  | test =>
    cases h : memRead u u.dr with
    | some w => exact (settle_compare u h rfl rfl : settle (runMicroprogram (executeMicro .test u) u) = _) ▸ .test w h
    | none => exact settle_read_fault u _ rfl h
  | out =>
    simp only [executeMicro, runMicroprogram_cons, operandX1_eq, bind_done, outX2_eq]
    exact .out
  | input =>
    simp only [executeMicro, runMicroprogram_cons]
    cases h : u.inBuf with
    | nil =>
      rw [inX1_of_empty h]
      exact .inputExhausted h
    | cons c rest =>
      rw [inX1_of_input h]
      exact .input c rest h
  | jg => exact settle_branch u rfl
  | jz => exact settle_branch u rfl
  | jnz => exact settle_branch u rfl
  | jmp =>
    simp only [executeMicro, jmpTaken, runMicroprogram_cons, branchX1_taken]
    exact .taken .jmp rfl

/-- A step that has fetched the word `w` ends in the fault of its indirect resolution or in an end of its opcode's
execute phase. -/
theorem step_executed {s t : State} {w : MachineWord} (hl : s.instr < s.cfg.limit) (hw : memRead s s.pc = some w)
    (h : step s = .next t) :
    (operandOf s w.value w.isIndirect = none ∧ t = { fetched w s with
      addr := w.value, alu := ⟨w.value, flagsOf w.value⟩, aluInputs := ⟨none, some w.value, some .skipB⟩,
      tick := s.tick + 3, status := .faulted (.addressFault w.value) }) ∨
      ∃ p, operandOf s w.value w.isIndirect = some p ∧ ExecuteEnd (executeEntry w p (fetched w s)) w.opcode t := by
  obtain ⟨_, hlim | ⟨_, w', hw', hrun⟩ | ⟨_, hn, _⟩⟩ := step_next_cases h
  · omega
  · rw [hw] at hw'
    cases hw'
    have hop : operandOf (fetched w s) w.value w.isIndirect = operandOf s w.value w.isIndirect := rfl
    cases ho : operandOf s w.value w.isIndirect with
    | none =>
      rw [runInstr_of_operand_fault _ (hop.trans ho)] at hrun
      cases hrun
      exact .inl ⟨rfl, rfl⟩
    | some p =>
      rw [runInstr_of_operand _ (hop.trans ho)] at hrun
      cases hrun
      exact .inr ⟨p, rfl, executeEnd _ _⟩
  · rw [hw] at hn
    cases hn

end Sys2Proof.Machine
end

