-- ==== Sys2Proof/Laws/PerInstr.lean ====
section
/-! SUPPORT. The statements made per instruction, one lemma per constructor of Instr. -/

namespace Sys2Proof.Laws

/-- No bit of an encoding is dropped: decoding the encoding of the instruction gives it back (R60 to R64, R82). -/
def RoundTrip.Statement : Instr → Prop := fun i => decode (encode i) = .ok i

theorem RoundTrip.nop (value : Int) (indirect : Bool) : RoundTrip.Statement (.nop value indirect) := rfl

theorem RoundTrip.inc (value : Int) (indirect : Bool) : RoundTrip.Statement (.inc value indirect) := rfl

theorem RoundTrip.dec (value : Int) (indirect : Bool) : RoundTrip.Statement (.dec value indirect) := rfl

theorem RoundTrip.halt (value : Int) (indirect : Bool) : RoundTrip.Statement (.halt value indirect) := rfl

theorem RoundTrip.push (value : Int) (indirect : Bool) : RoundTrip.Statement (.push value indirect) := rfl

theorem RoundTrip.pop (value : Int) (indirect : Bool) : RoundTrip.Statement (.pop value indirect) := rfl

theorem RoundTrip.load (value : Int) (indirect : Bool) : RoundTrip.Statement (.load value indirect) := rfl

theorem RoundTrip.store (value : Int) (indirect : Bool) : RoundTrip.Statement (.store value indirect) := rfl

theorem RoundTrip.add (value : Int) (indirect : Bool) : RoundTrip.Statement (.add value indirect) := rfl

theorem RoundTrip.sub (value : Int) (indirect : Bool) : RoundTrip.Statement (.sub value indirect) := rfl

theorem RoundTrip.mul (value : Int) (indirect : Bool) : RoundTrip.Statement (.mul value indirect) := rfl

theorem RoundTrip.div (value : Int) (indirect : Bool) : RoundTrip.Statement (.div value indirect) := rfl

theorem RoundTrip.out (value : Int) (indirect : Bool) : RoundTrip.Statement (.out value indirect) := rfl

theorem RoundTrip.input (value : Int) (indirect : Bool) : RoundTrip.Statement (.input value indirect) := rfl

theorem RoundTrip.cmp (value : Int) (indirect : Bool) : RoundTrip.Statement (.cmp value indirect) := rfl

theorem RoundTrip.test (value : Int) (indirect : Bool) : RoundTrip.Statement (.test value indirect) := rfl

theorem RoundTrip.jg (value : Int) (indirect : Bool) : RoundTrip.Statement (.jg value indirect) := rfl

theorem RoundTrip.jz (value : Int) (indirect : Bool) : RoundTrip.Statement (.jz value indirect) := rfl

theorem RoundTrip.jnz (value : Int) (indirect : Bool) : RoundTrip.Statement (.jnz value indirect) := rfl

theorem RoundTrip.jmp (value : Int) (indirect : Bool) : RoundTrip.Statement (.jmp value indirect) := rfl

theorem RoundTrip.aluIncA (a : Int) : RoundTrip.Statement (.aluIncA a) := rfl

theorem RoundTrip.aluDecA (a : Int) : RoundTrip.Statement (.aluDecA a) := rfl

theorem RoundTrip.aluIncB (b : Int) : RoundTrip.Statement (.aluIncB b) := rfl

theorem RoundTrip.aluDecB (b : Int) : RoundTrip.Statement (.aluDecB b) := rfl

theorem RoundTrip.aluAdd (a b : Int) : RoundTrip.Statement (.aluAdd a b) := rfl

theorem RoundTrip.aluSub (a b : Int) : RoundTrip.Statement (.aluSub a b) := rfl

theorem RoundTrip.aluMul (a b : Int) : RoundTrip.Statement (.aluMul a b) := rfl

theorem RoundTrip.aluDiv (a b : Int) : RoundTrip.Statement (.aluDiv a b) := rfl

theorem RoundTrip.aluCmp (a b : Int) : RoundTrip.Statement (.aluCmp a b) := rfl

theorem RoundTrip.aluTest (a b : Int) : RoundTrip.Statement (.aluTest a b) := rfl

theorem RoundTrip.aluSkipA (a : Int) : RoundTrip.Statement (.aluSkipA a) := rfl

theorem RoundTrip.aluSkipB (b : Int) : RoundTrip.Statement (.aluSkipB b) := rfl

end Sys2Proof.Laws
end

