-- ==== Sys2Proof/Tests/Slice0.lean ====
section
/-! SUPPORT. Tests on fixed values: what WellFormed refuses, decoding, one step of each instruction (the expected values
are those of the vectors of spec/95_test_vectors.md that the comments name), and for every statement with hypotheses a
state and operands that meet them. -/

namespace Sys2Proof.Tests

open Sys2Proof Sys2Proof.Machine

/-! ### Helpers -/

/-- The state a step or an instruction has left; a state that no test expects where there is none. -/
def nextOf (o : Host.Outcome State Fault Refusal) : State :=
  match o with
  | .next t => t
  | .fault _ | .refused _ => { State.reset with diag := [.limitExceeded, .limitExceeded] }

/-- The state S0 of spec/95_test_vectors.md section 0, with the word under test in cell 10. -/
def s0 (w : MachineWord) (cells : List (Nat × MachineWord)) : State :=
  { State.reset with
    pc := 10, tick := 100, instr := 7
    mem := cells.foldl (fun m c => setCell c.1 c.2 m) (setCell 10 w []) }

/-- The columns AC, PC, DR, SP, Addr, ToMem. -/
def registers (s : State) : List Int := [s.ac, s.pc, s.dr, s.sp, s.addr, s.toMem]

/-- The columns PS, res, TICK, INSTR, and the status. -/
def rest (s : State) : Flags × Int × Nat × Nat × Status := (s.ps, s.alu.result, s.tick, s.instr, s.status)

/-- ALU.result, both flags, and DIAG, the columns of the ALU vectors. -/
def aluView (s : State) : Int × Bool × Bool × List Diagnostic := (s.alu.result, s.alu.flags.n, s.alu.flags.z, s.diag)

/-- A state in which every operand form meets its hypotheses: cell 4 points at cell 30, cell 40 at port 1, cell 6 at no
cell; cell 30 holds 7 and cell 31 holds 0; three data at the ends of memory. -/
def sample : State :=
  { s0 ⟨.load, 4, true⟩ [(0, .nopOf 1), (4, .nopOf 30), (6, .nopOf 200), (30, .nopOf 7), (40, .nopOf 1),
      (199, .nopOf 9)] with
    ac := 5, sp := 0, inBuf := [104, 105] }

/-! ### WellFormed: an ill-formed term for each check, refused -/

theorem test_command_without_a : AluCommand.wellFormed ⟨.sub, none, some 3⟩ = false := by decide

theorem test_command_without_b : AluCommand.wellFormed ⟨.incB, some 3, none⟩ = false := by decide

theorem test_command_unused_absent : AluCommand.wellFormed ⟨.skipA, some 3, none⟩ = true := by decide

theorem test_memory_size_zero : Config.wellFormed { Config.default with memorySize := 0 } = false := by decide

theorem test_string_value : ArtifactValue.wellFormed (.string "A") = false := by decide

theorem test_index_size : ArtifactWord.indexInRange 200 ⟨200, "nop", .int 0, false⟩ = false := by decide

theorem test_index_negative : ArtifactWord.indexInRange 200 ⟨-1, "nop", .int 0, false⟩ = false := by decide

theorem test_unknown_tag : ArtifactWord.wellFormed 200 ⟨0, "NOP", .int 0, false⟩ = false := by decide

theorem test_last_index : ArtifactWord.wellFormed 200 ⟨199, "in", .absent, true⟩ = true := by decide

/-- Every check of the loader refuses by its own name (R200, D22). -/
theorem test_loader_refusals :
    load { Config.default with memorySize := 0 } [] [] = .refused (.configFault .memorySizeZero) ∧
      load .default [] [⟨0, "mov", .int 0, false⟩] = .refused (.configFault (.unknownOpcode "mov")) ∧
      load .default [] [⟨0, "nop", .string "A", false⟩] = .refused (.configFault (.stringValue "A")) ∧
      load .default [] [⟨200, "nop", .int 0, false⟩] = .refused (.configFault (.indexOutOfRange 200)) ∧
      decode (.command ⟨.div, some 1, none⟩) = .error (.missingOperand .div) := ⟨rfl, rfl, rfl, rfl, rfl⟩

/-! ### Decoding, from the objects of R66 written out and from the ALU rows' `alu(op, a, b)` -/

/-- The instruction that an artifact's object places in memory. -/
def decodeObject (value : Int) (tag : String) (indirect : Bool) : Option Instr :=
  match decodeArtifactWord 200 ⟨10, tag, .int value, indirect⟩ with
  | .ok (_, w) => some (decodeWord w)
  | .error _ => none

theorem test_decode_nullary :
    decodeObject 77 "nop" false = some (.nop 77 false) ∧ decodeObject 0 "inc" false = some (.inc 0 false) ∧
      decodeObject 0 "dec" true = some (.dec 0 true) ∧ decodeObject 3 "halt" true = some (.halt 3 true) ∧
      decodeObject 0 "push" false = some (.push 0 false) ∧ decodeObject 0 "pop" false = some (.pop 0 false) := by
  decide

theorem test_decode_operand :
    decodeObject 4 "load" true = some (.load 4 true) ∧ decodeObject (-201) "store" false = some (.store (-201) false) ∧
      decodeObject 30 "add" false = some (.add 30 false) ∧ decodeObject 31 "sub" false = some (.sub 31 false) ∧
      decodeObject 32 "mul" false = some (.mul 32 false) ∧ decodeObject 4 "div" true = some (.div 4 true) ∧
      decodeObject 1 "out" false = some (.out 1 false) ∧ decodeObject 55 "in" false = some (.input 55 false) ∧
      decodeObject 33 "cmp" false = some (.cmp 33 false) ∧ decodeObject 34 "test" false = some (.test 34 false) := by
  decide

theorem test_decode_branch :
    decodeObject 40 "jg" false = some (.jg 40 false) ∧ decodeObject (-1) "jz" false = some (.jz (-1) false) ∧
      decodeObject 200 "jnz" false = some (.jnz 200 false) ∧ decodeObject 5 "jmp" true = some (.jmp 5 true) := by
  decide

/-- An ALU operation takes the operands it uses, in their places, and ignores the other (R82). -/
theorem test_decode_alu :
    decode (.command ⟨.incA, some 1, some 2⟩) = .ok (.aluIncA 1) ∧
      decode (.command ⟨.decA, some 1, none⟩) = .ok (.aluDecA 1) ∧
      decode (.command ⟨.incB, some 1, some 2⟩) = .ok (.aluIncB 2) ∧
      decode (.command ⟨.decB, none, some 2⟩) = .ok (.aluDecB 2) ∧
      decode (.command ⟨.add, some 1, some 2⟩) = .ok (.aluAdd 1 2) ∧
      decode (.command ⟨.sub, some 1, some 2⟩) = .ok (.aluSub 1 2) ∧
      decode (.command ⟨.mul, some 1, some 2⟩) = .ok (.aluMul 1 2) ∧
      decode (.command ⟨.div, some 1, some 2⟩) = .ok (.aluDiv 1 2) ∧
      decode (.command ⟨.cmp, some 1, some 2⟩) = .ok (.aluCmp 1 2) ∧
      decode (.command ⟨.test, some 1, some 2⟩) = .ok (.aluTest 1 2) ∧
      decode (.command ⟨.skipA, some 1, some 2⟩) = .ok (.aluSkipA 1) ∧
      decode (.command ⟨.skipB, some 1, some 2⟩) = .ok (.aluSkipB 2) := by
  repeat' constructor

/-- The table's numbers: bits 4..0 are the ordinal, 20 and above are no row's (R72). -/
theorem test_table_numbers :
    (List.range 20).map (fun n => decodeTableWord 8 n) = opcodes.map (fun o => some (decodeWord ⟨o, 0, false⟩)) ∧
      decodeTableWord 8 0 = some (.nop 0 false) ∧ decodeTableWord 8 16 = some (.jg 0 false) ∧
      decodeTableWord 8 (32 + 6) = some (.load 0 false) ∧ decodeTableWord 8 20 = none ∧ decodeTableWord 8 31 = none := by
  decide

/-- A number's instruction is the first that step runs after reset. -/
theorem test_withFetchWord : (nextOf (step (State.reset.withFetchWord 8 1))).ac = 1 ∧
    (nextOf (step (State.reset.withFetchWord 8 1))).ir = ⟨.inc, 0, false⟩ := by decide

/-- R43, R49: what a write leaves, and the canonical form: writing what an unlisted cell holds removes the entry. -/
theorem test_memory : setCell 2 (.nopOf 5) (setCell 9 (.nopOf 1) []) = [(2, .nopOf 5), (9, .nopOf 1)] ∧
    setCell 2 (.nopOf 0) [(2, .nopOf 5), (9, .nopOf 1)] = [(9, .nopOf 1)] ∧
    Memory.wf (setCell 2 (.nopOf 5) [(9, .nopOf 1)]) := by decide

/-! ### The ALU: the vectors A1 to A45 -/

theorem test_alu_inc_a : aluView (nextOf (exec (.aluIncA (-1)) .reset)) = (0, false, true, []) := by decide  -- A2

theorem test_alu_dec_a : aluView (nextOf (exec (.aluDecA 0) .reset)) = (-1, true, false, []) := by decide  -- A5

theorem test_alu_inc_b : aluView (nextOf (exec (.aluIncB 199) .reset)) = (200, false, false, []) := by decide  -- A6

theorem test_alu_dec_b : aluView (nextOf (exec (.aluDecB 0) .reset)) = (-1, true, false, []) := by decide  -- A8

theorem test_alu_add : aluView (nextOf (exec (.aluAdd 9223372036854775807 1) .reset)) =
    (9223372036854775808, false, false, []) := by decide  -- A12

theorem test_alu_sub : aluView (nextOf (exec (.aluSub 3 5) .reset)) = (-2, true, false, []) := by decide  -- A13

theorem test_alu_mul : aluView (nextOf (exec (.aluMul (-6) 7) .reset)) = (-42, true, false, []) := by decide  -- A16

theorem test_alu_div : aluView (nextOf (exec (.aluDiv 7 (-2)) .reset)) = (-4, true, false, []) := by decide  -- A22

theorem test_alu_div_zero : aluView (nextOf (exec (.aluDiv 5 0) .reset)) = (0, false, true, [.divByZero]) := by
  decide  -- A29

/-- The sequence after A45: CMP keeps the 31 that SKIP_B left. -/
theorem test_alu_cmp : aluView (nextOf (exec (.aluCmp 3 5) (nextOf (exec (.aluSkipB 31) .reset)))) =
    (31, true, false, []) := by decide

theorem test_alu_test : aluView (nextOf (exec (.aluTest (-4) (-6)) .reset)) = (0, true, false, []) := by decide  -- A40

/-- A38, A39, A41: TEST of operands of different signs. -/
theorem test_alu_and : bitAnd (-1) 5 = 5 ∧ bitAnd (-2) 3 = 2 ∧ bitAnd (-8) 7 = 0 ∧ bitAnd (-4) (-6) = -8 ∧
    bitAnd 12 10 = 8 := by decide

theorem test_alu_skip_a : aluView (nextOf (exec (.aluSkipA (-9)) .reset)) = (-9, true, false, []) := by decide  -- A42

theorem test_alu_skip_b : aluView (nextOf (exec (.aluSkipB 65) .reset)) = (65, false, false, []) := by decide  -- A45

/-! ### One instruction: the vectors NU1 to B, from S0 -/

theorem test_nop : let t := nextOf (step { s0 ⟨.nop, 77, false⟩ [] with ac := 5, ps := ⟨false, true⟩ })
    registers t = [5, 11, 77, 0, 10, 0] ∧ rest t = (⟨false, false⟩, 11, 103, 8, .running) := by decide  -- NU2

theorem test_nop_indirect : let t := nextOf (step { s0 ⟨.nop, 3, true⟩ [(3, .nopOf 9)] with ac := 5 })
    registers t = [5, 11, 9, 0, 3, 0] ∧ rest t = (⟨false, false⟩, 3, 105, 8, .running) := by decide  -- NU4

theorem test_inc : let t := nextOf (step { s0 ⟨.inc, 0, false⟩ [] with ac := -1 })
    registers t = [0, 11, 0, 0, 10, 0] ∧ rest t = (⟨false, true⟩, 0, 103, 8, .running) := by decide  -- NU6

theorem test_dec : let t := nextOf (step { s0 ⟨.dec, 0, false⟩ [] with ac := 0 })
    registers t = [-1, 11, 0, 0, 10, 0] ∧ rest t = (⟨true, false⟩, -1, 103, 8, .running) := by decide  -- NU9

theorem test_halt : let t := nextOf (step { s0 ⟨.halt, 0, false⟩ [] with ac := 5, ps := ⟨true, false⟩ })
    registers t = [5, 11, 0, 0, 10, 0] ∧ rest t = (⟨true, false⟩, 11, 102, 8, .halted .haltInstr) := by
  decide  -- NU10

theorem test_halt_indirect_fault : let t := nextOf (step { s0 ⟨.halt, 300, true⟩ [] with ac := 5 })
    registers t = [5, 11, 300, 0, 300, 0] ∧
      rest t = (⟨false, false⟩, 300, 103, 7, .faulted (.addressFault 300)) := by decide  -- NU13

theorem test_push_at_zero : let t := nextOf (step { s0 ⟨.push, 0, false⟩ [] with ac := 7 })
    registers t = [7, 11, 0, 199, -1, 7] ∧ rest t = (⟨false, false⟩, 7, 104, 8, .running) ∧
      readCell t.mem 199 = ⟨.nop, 7, false⟩ := by decide  -- NU14

theorem test_push : let t := nextOf (step { s0 ⟨.push, 0, false⟩ [] with ac := -7, sp := 1 })
    registers t = [-7, 11, 0, 0, 0, -7] ∧ readCell t.mem 0 = ⟨.nop, -7, false⟩ := by decide  -- NU15

theorem test_pop_wraps : let t := nextOf (step { s0 ⟨.pop, 0, false⟩ [(199, .nopOf 7)] with sp := 199 })
    registers t = [7, 11, 7, 0, 199, 0] ∧ rest t = (⟨false, false⟩, 7, 105, 8, .running) := by decide  -- NU17

theorem test_pop_value_only :
    let t := nextOf (step { s0 ⟨.pop, 0, false⟩ [(150, ⟨.load, 33, true⟩)] with ac := 1, sp := 150 })
    registers t = [33, 11, 33, 151, 150, 0] ∧ readCell t.mem 150 = ⟨.load, 33, true⟩ := by decide  -- NU20

theorem test_load_indirect : let t := nextOf (step (s0 ⟨.load, 4, true⟩ [(2, .nopOf 65), (4, .nopOf 2)]))
    registers t = [65, 11, 65, 0, 2, 0] ∧ rest t = (⟨false, false⟩, 65, 106, 8, .running) := by decide  -- O2

theorem test_load_fault : let t := nextOf (step { s0 ⟨.load, -1, false⟩ [] with ac := 9 })
    registers t = [9, 11, -1, 0, -1, 0] ∧ rest t = (⟨false, false⟩, -1, 103, 7, .faulted (.addressFault (-1))) := by
  decide  -- O8

theorem test_store_negative : let t := nextOf (step { s0 ⟨.store, -200, false⟩ [] with ac := 8 })
    registers t = [8, 11, -200, 0, -200, 8] ∧ readCell t.mem 0 = ⟨.nop, 8, false⟩ := by decide  -- O12

theorem test_store_fault : let t := nextOf (step { s0 ⟨.store, -201, false⟩ [] with ac := 8 })
    registers t = [8, 11, -201, 0, -201, 8] ∧
      rest t = (⟨false, false⟩, 8, 103, 7, .faulted (.addressFault (-201))) := by decide  -- O13

theorem test_add : let t := nextOf (step { s0 ⟨.add, 30, false⟩ [(30, .nopOf (-8))] with ac := 5 })
    registers t = [-3, 11, -8, 0, 30, 0] ∧ rest t = (⟨true, false⟩, -3, 104, 8, .running) := by decide  -- O16

theorem test_sub : let t := nextOf (step { s0 ⟨.sub, 30, false⟩ [(30, .nopOf 5)] with ac := 3 })
    registers t = [-2, 11, 5, 0, 30, 0] ∧ rest t = (⟨true, false⟩, -2, 104, 8, .running) := by decide  -- O19

theorem test_mul : let t := nextOf (step { s0 ⟨.mul, 30, false⟩ [(30, .nopOf 7)] with ac := -6 })
    registers t = [-42, 11, 7, 0, 30, 0] ∧ rest t = (⟨true, false⟩, -42, 104, 8, .running) := by decide  -- O21

theorem test_div_floor : let t := nextOf (step { s0 ⟨.div, 30, false⟩ [(30, .nopOf (-2))] with ac := 7 })
    registers t = [-4, 11, -2, 0, 30, 0] ∧ rest t = (⟨true, false⟩, -4, 104, 8, .running) := by decide  -- O25

theorem test_div_zero : let t := nextOf (step { s0 ⟨.div, 30, false⟩ [] with ac := 7 })
    registers t = [0, 11, 0, 0, 30, 0] ∧ rest t = (⟨false, true⟩, 0, 104, 8, .running) ∧ t.diag = [.divByZero] := by
  decide  -- O28

theorem test_cmp : let t := nextOf (step { s0 ⟨.cmp, 31, false⟩ [(31, .nopOf 5)] with ac := 3 })
    registers t = [3, 11, 5, 0, 31, 0] ∧ rest t = (⟨true, false⟩, 31, 104, 8, .running) := by decide  -- O33

theorem test_test : let t := nextOf (step { s0 ⟨.test, 32, false⟩ [(32, .nopOf 1)] with ac := 6 })
    registers t = [6, 11, 1, 0, 32, 0] ∧ rest t = (⟨false, true⟩, 32, 104, 8, .running) := by decide  -- O34

theorem test_out : let t := nextOf (step { s0 ⟨.out, 40, true⟩ [(40, .nopOf 1)] with ac := 65 })
    t.outBuf = [65] ∧ registers t = [65, 11, 1, 0, 1, 0] ∧ rest t = (⟨false, false⟩, 1, 106, 8, .running) := by
  decide  -- O44

theorem test_out_other_port : let t := nextOf (step { s0 ⟨.out, 500, false⟩ [] with ac := 65 })
    t.outBuf = [] ∧ registers t = [65, 11, 500, 0, 500, 0] ∧ rest t = (⟨false, false⟩, 500, 104, 8, .running) := by
  decide  -- O42

theorem test_in : let t := nextOf (step { s0 ⟨.input, 0, false⟩ [] with ac := 1, inBuf := [104, 105] })
    t.inBuf = [105] ∧ registers t = [104, 11, 0, 0, 10, 0] ∧ rest t = (⟨false, false⟩, 11, 103, 8, .running) := by
  decide  -- O45

theorem test_in_empty : let t := nextOf (step { s0 ⟨.input, 0, false⟩ [] with ac := 1, ps := ⟨true, false⟩ })
    registers t = [1, 11, 0, 0, 10, 0] ∧ rest t = (⟨true, false⟩, 11, 102, 8, .halted .inputExhausted) := by
  decide  -- O48

theorem test_jg : (nextOf (step (s0 ⟨.jg, 40, false⟩ []))).pc = 40 ∧
    (nextOf (step { s0 ⟨.jg, 40, false⟩ [] with ps := ⟨true, false⟩ })).pc = 11 := by decide

theorem test_jz : (nextOf (step (s0 ⟨.jz, 40, false⟩ []))).pc = 11 ∧
    (nextOf (step { s0 ⟨.jz, 40, false⟩ [] with ps := ⟨false, true⟩ })).pc = 40 := by decide

theorem test_jnz : (nextOf (step (s0 ⟨.jnz, 40, false⟩ []))).pc = 40 ∧
    (nextOf (step { s0 ⟨.jnz, 40, false⟩ [] with ps := ⟨false, true⟩ })).pc = 11 := by decide

theorem test_jmp_wraps : let t := nextOf (step (s0 ⟨.jmp, -1, false⟩ []))
    registers t = [0, 199, -1, 0, 10, 0] ∧ rest t = (⟨true, false⟩, -1, 103, 8, .running) := by decide  -- B2

/-! ### The end of a run -/

theorem test_limit : let t := nextOf (step { State.reset with instr := 1000 })
    t.status = .limitReached ∧ t.diag = [.limitExceeded] ∧ t.pc = 0 ∧ t.tick = 0 ∧
      hostResult t = some ⟨[], 1000, 0⟩ := by decide

theorem test_over : step { State.reset with status := .halted .haltInstr } = .fault (.halted .haltInstr) ∧
    step { State.reset with status := .limitReached } = .fault .limitReached ∧
    step { State.reset with status := .faulted (.addressFault 3) } = .fault (.faulted (.addressFault 3)) :=
  ⟨rfl, rfl, rfl⟩

/-! ### Witnesses: for each statement with hypotheses, values that meet them, a boundary value for each clause -/

theorem witness_DecodeEncodeRoundTrip :
    (199 < 200) ∧ decodeArtifactWord 200 ⟨199, "jmp", .int (-3), true⟩ = .ok (199, ⟨.jmp, -3, true⟩) ∧
      decodeArtifactWord 200 ⟨0, "halt", .absent, false⟩ = .ok (0, ⟨.halt, 0, false⟩) := ⟨by decide, rfl, rfl⟩

theorem witness_DecodeAcceptsExactlyWellFormed :
    AluCommand.wellFormed ⟨.add, some 1, some 2⟩ = true ∧ AluCommand.wellFormed ⟨.add, some 1, none⟩ = false := by
  decide

/-- Two words of one index, the later an absent value. -/
def twoWords : List ArtifactWord := [⟨5, "load", .int 9, true⟩, ⟨199, "jz", .int 1, false⟩, ⟨5, "dec", .absent, false⟩]

theorem witness_LoadAcceptsExactlyWellFormed :
    (Config.default.wellFormed = true ∧ ∀ w ∈ twoWords, w.wellFormed 200 = true) ∧
      ¬(∀ w ∈ [(⟨200, "nop", .int 0, false⟩ : ArtifactWord)], w.wellFormed 200 = true) := by decide

/-- Also for LoadedStateSound. -/
theorem witness_LoadPlacesLastWord : let s := nextOf (load .default [65] twoWords)
    load .default [65] twoWords = .next s ∧ s.inBuf = [65] ∧ readCell s.mem 5 = ⟨.dec, 0, false⟩ ∧
      readCell s.mem 199 = ⟨.jz, 1, false⟩ ∧ readCell s.mem 6 = ⟨.nop, 0, false⟩ := ⟨rfl, by decide⟩

theorem witness_LoadedStateSound : let s := nextOf (load .default [] twoWords)
    load .default [] twoWords = .next s ∧ s.mem.length = 2 := ⟨rfl, by decide⟩

/-- Also for the clauses of AluTestableProperties. -/
theorem witness_AluDivision : ((1 : Int) ≠ 0 ∧ (0 : Int) < 1) ∧ ((-1 : Int) ≠ 0 ∧ (-1 : Int) < 0) := by decide

theorem witness_IntegerOperations : 1 ≤ State.reset.cfg.memorySize ∧ wrap .reset (-1) = 199 ∧ wrap .reset 200 = 0 ∧
    floorDiv (-7) 2 = -4 ∧ floorDiv 7 (-2) = -4 := by decide

theorem witness_AluTestableProperties :
    aluCompute .test (some (-4)) (some (-6)) .reset = .done (nextOf (exec (.aluTest (-4) (-6)) .reset)) := rfl

theorem witness_MissingAluOperandIsConfigFault :
    ((AluOp.incA.usesA = true → (some LeftSelector.fromAc).isSome = true) ∧
        (AluOp.incA.usesB = true → (none : Option RightSelector).isSome = true)) ∧
      ¬((AluOp.incA.usesA = true → (none : Option LeftSelector).isSome = true) ∧
        (AluOp.incA.usesB = true → (some RightSelector.fromDr).isSome = true)) := by decide

theorem witness_LatchAndOutputSignals : State.reset.inBuf = [] ∧ sample.inBuf = 104 :: [105] ∧
    { State.reset with dr := 1 }.dr = 1 ∧ State.reset.dr ≠ 1 := by decide

theorem witness_ReadingSignalsCheckAddress :
    let at_ (a : Int) := { State.reset with addr := a }
    (0 ≤ (at_ 0).addr ∧ (at_ 0).addr < (at_ 0).cfg.memorySize) ∧
      (0 ≤ (at_ 199).addr ∧ (at_ 199).addr < (at_ 199).cfg.memorySize) ∧ (at_ (-1)).addr < 0 ∧
      ((at_ 200).cfg.memorySize : Int) ≤ (at_ 200).addr := by decide

/-- The two clauses exclude each other: -201 and 200 fault, -200, -1, 0 and 199 do not. -/
theorem witness_WriteMemoryReplacesOneCell :
    (∀ a ∈ [-200, -1, 0, 199], -(State.reset.cfg.memorySize : Int) ≤ a ∧ a < State.reset.cfg.memorySize) ∧
      ((-201 : Int) < -(State.reset.cfg.memorySize : Int)) ∧ (State.reset.cfg.memorySize : Int) ≤ 200 := by decide

theorem witness_RaisingSignalChangesNothing :
    runSignal .writeMemory { State.reset with addr := 200 } =
      .raised (.fatal (.addressFault 200)) { State.reset with addr := 200 } := by decide

/-- The operand of an instruction resolves, directly and through a pointer: the one hypothesis of NopResult,
IncDecResult, HaltResult, OutResult and BranchResult. -/
theorem witness_NopResult : operandOf sample (-3) false = some (-3) ∧ operandOf sample 4 true = some 30 := by decide

theorem witness_IncDecResult : operandOf sample 0 false = some 0 ∧ operandOf sample 199 true = some 9 := by decide

theorem witness_HaltResult : operandOf sample 0 false = some 0 ∧ operandOf sample 0 true = some 1 := by decide

theorem witness_PushResult : operandOf sample 0 false = some 0 ∧ (0 ≤ sample.sp ∧ sample.sp < sample.cfg.memorySize) ∧
    (0 ≤ { sample with sp := 199 }.sp ∧ { sample with sp := 199 }.sp < (sample.cfg.memorySize : Int)) := by decide

theorem witness_PopResult : operandOf sample 4 true = some 30 ∧ (0 ≤ sample.sp ∧ sample.sp < sample.cfg.memorySize) ∧
    (0 ≤ { sample with sp := 199 }.sp ∧ { sample with sp := 199 }.sp < (sample.cfg.memorySize : Int)) := by decide

/-- The read of the operand's cell is admitted for 0 and 199 and not for -1 and 200. -/
theorem witness_LoadResult :
    (operandOf sample 4 true = some 30 ∧ memRead sample 30 = some ⟨.nop, 7, false⟩) ∧
      (operandOf sample 0 false = some 0 ∧ memRead sample 0 = some ⟨.nop, 1, false⟩) ∧
      (operandOf sample 199 false = some 199 ∧ memRead sample 199 = some ⟨.nop, 9, false⟩) ∧
      (operandOf sample 6 true = some 200 ∧ memRead sample 200 = none) ∧
      (operandOf sample (-1) false = some (-1) ∧ memRead sample (-1) = none) := by decide

theorem witness_StoreResult :
    (∀ a ∈ [-200, -1, 0, 199], operandOf sample a false = some a ∧ -(sample.cfg.memorySize : Int) ≤ a ∧
        a < sample.cfg.memorySize) ∧
      (operandOf sample 4 true = some 30 ∧ (30 : Int) < sample.cfg.memorySize) ∧
      (operandOf sample 6 true = some 200 ∧ (sample.cfg.memorySize : Int) ≤ 200) ∧
      operandOf sample (-201) false = some (-201) ∧ (-201 : Int) < -(sample.cfg.memorySize : Int) := by decide

theorem witness_AddSubMulResult :
    (operandOf sample 30 false = some 30 ∧ memRead sample 30 = some ⟨.nop, 7, false⟩) ∧
      (operandOf sample 6 true = some 200 ∧ memRead sample 200 = none) := by decide

theorem witness_DivResult :
    (memRead sample 30 = some ⟨.nop, 7, false⟩ ∧ (7 : Int) ≠ 0) ∧ memRead sample 31 = some ⟨.nop, 0, false⟩ ∧
      (operandOf sample 200 false = some 200 ∧ memRead sample 200 = none) := by decide

theorem witness_CmpTestResult :
    (operandOf sample 4 true = some 30 ∧ memRead sample 30 = some ⟨.nop, 7, false⟩) ∧
      (operandOf sample (-1) false = some (-1) ∧ memRead sample (-1) = none) := by decide

theorem witness_OutResult : operandOf sample 1 false = some 1 ∧ operandOf sample 40 true = some 1 ∧
    operandOf sample 2 false = some 2 := by decide

theorem witness_InResult : operandOf sample 55 false = some 55 ∧ sample.inBuf = 104 :: [105] ∧
    operandOf { sample with inBuf := [] } 4 true = some 30 ∧ { sample with inBuf := [] }.inBuf = [] := by decide

theorem witness_BranchResult : operandOf sample 200 false = some 200 ∧ operandOf sample 4 true = some 30 := by decide

theorem witness_IndirectOperandFault : operandOf sample 200 true = none ∧ operandOf sample (-1) true = none := by
  decide

/-- Direct at SP = 0 with the pop in cell 11, and both indirect with the push in the last cell but one and SP = MS - 1. -/
theorem witness_PushThenPopRestores :
    (let s := { s0 ⟨.push, 0, false⟩ [(11, ⟨.pop, 0, false⟩)] with ac := 7 };
      s.status = .running ∧ s.instr + 1 < s.cfg.limit ∧ 0 ≤ s.sp ∧ s.sp < s.cfg.memorySize ∧
        memRead s s.pc = some ⟨.push, 0, false⟩ ∧ operandOf s 0 false = some 0 ∧
        memRead s ((s.pc + 1) % s.cfg.memorySize) = some ⟨.pop, 0, false⟩ ∧
        (s.pc + 1) % s.cfg.memorySize ≠ (s.sp - 1) % s.cfg.memorySize) ∧
      (let s := { s0 ⟨.nop, 0, false⟩ [(198, ⟨.push, 4, true⟩), (199, ⟨.pop, 198, true⟩)] with pc := 198, sp := 199 };
        s.instr + 1 < s.cfg.limit ∧ 0 ≤ s.sp ∧ s.sp < s.cfg.memorySize ∧
          memRead s s.pc = some ⟨.push, 4, true⟩ ∧ operandOf s 4 true = some 0 ∧
          memRead s ((s.pc + 1) % s.cfg.memorySize) = some ⟨.pop, 198, true⟩ ∧ operandOf s 198 true = some 4 ∧
          (s.pc + 1) % s.cfg.memorySize ≠ (s.sp - 1) % s.cfg.memorySize) := by decide

/-- The three branches behind one cmp, the last through a pointer, and the state the cmp leaves. -/
theorem witness_CmpThenBranch :
    let s (b : MachineWord) := { s0 ⟨.cmp, 4, true⟩ [(4, .nopOf 30), (11, b), (30, .nopOf 7)] with ac := 7 }
    (∀ b ∈ [(⟨.jg, 40, false⟩ : MachineWord), ⟨.jz, -1, false⟩, ⟨.jnz, 30, true⟩],
      (s b).status = .running ∧ (s b).instr + 1 < (s b).cfg.limit ∧ memRead (s b) (s b).pc = some ⟨.cmp, 4, true⟩ ∧
        operandOf (s b) 4 true = some 30 ∧ memRead (s b) 30 = some ⟨.nop, 7, false⟩ ∧
        (operandOf (s b) b.value b.isIndirect).isSome = true ∧
        memRead (nextOf (step (s b))) (nextOf (step (s b))).pc = some b) := by decide

/-- The word at PC is fetched below the limit: also the hypotheses of StaleLatchesNeverRead. -/
theorem witness_StepRunsDecodedInstruction :
    (sample.status = .running ∧ sample.instr < sample.cfg.limit ∧ memRead sample sample.pc = some ⟨.load, 4, true⟩) ∧
      memRead { sample with pc := 199 } 199 = some ⟨.nop, 9, false⟩ := by decide

theorem witness_LimitStopsBeforeFetch :
    { sample with instr := 1000 }.status = .running ∧ sample.cfg.limit ≤ { sample with instr := 1000 }.instr := by decide

theorem witness_OnlyRunningSteps :
    sample.status = .running ∧ { sample with status := .limitReached }.status ≠ .running := by decide

/-- Each of the five ends of a step. -/
theorem witness_WaysAStepCanEnd :
    (step sample = .next (nextOf (step sample)) ∧ (nextOf (step sample)).status = .running) ∧
      (nextOf (step { sample with instr := 1000 })).status = .limitReached ∧
      (nextOf (step (s0 ⟨.halt, 0, false⟩ []))).status = .halted .haltInstr ∧
      (nextOf (step (s0 ⟨.input, 0, false⟩ []))).status = .halted .inputExhausted ∧
      (nextOf (step (s0 ⟨.load, 200, false⟩ []))).status = .faulted (.addressFault 200) := ⟨⟨rfl, by decide⟩, by decide⟩

/-- The hypotheses that TickTotals, FlagsLeftInPs, StateAtEachEnding and WritersOfEachRegister share, for one instruction
that completes, one that halts and one that faults. -/
theorem witness_TickTotals :
    (sample.instr < sample.cfg.limit ∧ memRead sample sample.pc = some ⟨.load, 4, true⟩) ∧
      step sample = .next (nextOf (step sample)) ∧ (nextOf (step sample)).status = .running ∧
      (nextOf (step (s0 ⟨.halt, 0, false⟩ []))).status = .halted .haltInstr := ⟨by decide, rfl, by decide⟩

theorem witness_FlagsLeftInPs :
    (sample.instr < sample.cfg.limit ∧ memRead sample sample.pc = some ⟨.load, 4, true⟩) ∧
      step sample = .next (nextOf (step sample)) ∧ (nextOf (step sample)).status = .running := ⟨by decide, rfl, by decide⟩

theorem witness_StateAtEachEnding :
    (let s := s0 ⟨.input, 4, true⟩ [];
      (s.instr < s.cfg.limit ∧ memRead s s.pc = some ⟨.input, 4, true⟩) ∧ step s = .next (nextOf (step s)) ∧
        (nextOf (step s)).status = .halted .inputExhausted) ∧
      (let s := s0 ⟨.store, 200, false⟩ [];
        (s.instr < s.cfg.limit ∧ memRead s s.pc = some ⟨.store, 200, false⟩ ∧ operandOf s 200 false = some 200) ∧
          step s = .next (nextOf (step s)) ∧ (nextOf (step s)).status = .faulted (.addressFault 200)) ∧
      (let s := s0 ⟨.store, -1, true⟩ [];
        (s.instr < s.cfg.limit ∧ memRead s s.pc = some ⟨.store, -1, true⟩ ∧ operandOf s (-1) true = none) ∧
          step s = .next (nextOf (step s)) ∧ (nextOf (step s)).status = .faulted (.addressFault (-1))) :=
  ⟨⟨by decide, rfl, by decide⟩, ⟨by decide, rfl, by decide⟩, ⟨by decide, rfl, by decide⟩⟩

/-- load is outside every list but AC's, cmp is outside AC's. -/
theorem witness_WritersOfEachRegister :
    (sample.instr < sample.cfg.limit ∧ memRead sample sample.pc = some ⟨.load, 4, true⟩ ∧
        Opcode.load ∉ [Opcode.push, .pop] ∧ Opcode.load ∉ [Opcode.push, .store] ∧
        Opcode.load ∉ [Opcode.jg, .jz, .jnz, .jmp]) ∧
      step sample = .next (nextOf (step sample)) ∧
      (let s := s0 ⟨.cmp, 30, false⟩ [];
        (s.instr < s.cfg.limit ∧ memRead s s.pc = some ⟨.cmp, 30, false⟩ ∧
            Opcode.cmp ∉ [Opcode.inc, .dec, .load, .add, .sub, .mul, .div, .pop, .input]) ∧
          step s = .next (nextOf (step s))) := ⟨by decide, rfl, by decide, rfl⟩

/-- A store over an instruction and a push at SP = 0, whose cell is the last; a store whose address names no cell, an
operand that does not resolve, an opcode that writes none, the limit, and a PC that names no cell. -/
theorem witness_WrittenCellsAreNopWords :
    (let s := s0 ⟨.store, 0, false⟩ [(0, ⟨.jmp, 5, false⟩)];
      (step s = .next (nextOf (step s)) ∧ s.instr < s.cfg.limit) ∧ memRead s s.pc = some ⟨.store, 0, false⟩ ∧
        operandOf s 0 false = some 0 ∧ writeIndex s.cfg.memorySize 0 = some 0) ∧
      (let s := s0 ⟨.push, 0, false⟩ [];
        step s = .next (nextOf (step s)) ∧ memRead s s.pc = some ⟨.push, 0, false⟩ ∧ operandOf s 0 false = some 0 ∧
          writeIndex s.cfg.memorySize (s.sp - 1) = some 199) ∧
      (let s := { s0 ⟨.push, 0, false⟩ [] with sp := 201 };
        step s = .next (nextOf (step s)) ∧ writeIndex s.cfg.memorySize (s.sp - 1) = none) ∧
      (let s := s0 ⟨.store, 200, false⟩ [];
        step s = .next (nextOf (step s)) ∧ operandOf s 200 false = some 200 ∧
          writeIndex s.cfg.memorySize 200 = none) ∧
      (let s := s0 ⟨.store, 200, true⟩ [];
        step s = .next (nextOf (step s)) ∧ operandOf s 200 true = none) ∧
      (step sample = .next (nextOf (step sample)) ∧ Opcode.load ≠ .push ∧ Opcode.load ≠ .store) ∧
      (let s := { sample with instr := 1000 };
        step s = .next (nextOf (step s)) ∧ s.cfg.limit ≤ s.instr) ∧
      (let s := { sample with pc := 200 };
        step s = .next (nextOf (step s)) ∧ memRead s s.pc = none) :=
  ⟨⟨⟨rfl, by decide⟩, by decide⟩, ⟨rfl, by decide⟩, ⟨rfl, by decide⟩, ⟨rfl, by decide⟩, ⟨rfl, by decide⟩,
    ⟨rfl, by decide⟩, ⟨rfl, by decide⟩, ⟨rfl, by decide⟩⟩

theorem witness_BuffersMoveOneWay : let s := { s0 ⟨.input, 0, false⟩ [] with inBuf := [65] }
    step s = .next (nextOf (step s)) ∧ s.inBuf = 65 :: (nextOf (step s)).inBuf := ⟨rfl, by decide⟩

theorem sample_inv : sample.Inv := by
  constructor <;> decide

theorem witness_StepKeepsInvariant : sample.Inv ∧ step sample = .next (nextOf (step sample)) := ⟨sample_inv, rfl⟩

theorem witness_StepKeepsTickBounds :
    { sample with tick := 21 }.TickBounds ∧ step { sample with tick := 21 } = .next (nextOf (step { sample with tick := 21 })) :=
  ⟨⟨by decide, by decide⟩, rfl⟩

theorem witness_SoundFetchNeverFaults : sample.Inv ∧ { sample with pc := 199 }.Inv :=
  ⟨sample_inv, by constructor <;> decide⟩

theorem witness_StaleLatchesNeverRead :
    sample.status = .running ∧ sample.instr < sample.cfg.limit ∧ memRead sample sample.pc = some ⟨.load, 4, true⟩ := by
  decide

theorem witness_TickAndDiagNeverRead : step sample = .next (nextOf (step sample)) := rfl

theorem witness_TickMachineAgreesWithStep :
    sample.status = .running ∧ sample.instr < sample.cfg.limit ∧ runTicks 8 .f1 sample = some (nextOf (step sample)) := by
  decide

theorem witness_HostGetsResultAtCleanEnds :
    { sample with status := .halted .haltInstr }.endedCleanly = true ∧ sample.endedCleanly = false := by decide

end Sys2Proof.Tests
end

/-! PROOF. Reset's parameters, and the integer operations the machine is built from (R5, R6, R81). -/

namespace Sys2Proof.Proofs.Scope

open Sys2Proof Sys2Proof.Machine

/-! ### The AND of two's-complement forms (R6, D3) -/

/-- The lowest bit of a number goes to exactly one of its two parts: inside the mask or outside it. -/
theorem bit_and_add_bit_and_not (b c : Bool) (x y : Nat) :
    Nat.bit (b && c) x + Nat.bit (b && !c) y = Nat.bit b (x + y) := by
  cases b <;> cases c <;> simp [Nat.bit_val] <;> omega

/-- A number is its bits inside a mask and its bits outside it. -/
theorem and_add_ldiff (m n : Nat) : (m &&& n) + Nat.ldiff m n = m := by
  induction m using Nat.binaryRec generalizing n with
  | zero => simp [Nat.ldiff]
  | bit b m ih =>
    cases n using Nat.bitCasesOn with
    | bit c n => rw [Nat.land_bit, Nat.ldiff_bit, bit_and_add_bit_and_not, ih]

/-- The subtraction by which `bitAnd` clears bits never borrows. -/
theorem sub_and_eq_ldiff (m n : Nat) : m - (m &&& n) = Nat.ldiff m n := by
  have hsplit := and_add_ldiff m n
  omega

/-- The model's AND is Mathlib's, so the library's facts about bits hold of it. -/
theorem bitAnd_eq_land (a b : Int) : bitAnd a b = Int.land a b := by
  cases a <;> cases b <;> simp [bitAnd, Int.land, sub_and_eq_ldiff]

/-- Division by a power of two rounds down, so it also shifts a negative number's two's-complement form. -/
theorem negSucc_ediv_two_pow (m k : Nat) : Int.negSucc m / 2 ^ k = Int.negSucc (m / 2 ^ k) := by
  rw [Int.negSucc_ediv m (by positivity), Int.negSucc_eq]
  norm_cast

/-- Bit `k` of an integer, as R6 counts it, is bit `k` of its infinite two's-complement form. -/
theorem testBit_iff_ediv_emod (x : Int) (k : Nat) : x.testBit k = true ↔ x / 2 ^ k % 2 = 1 := by
  cases x with
  | ofNat m =>
    have hcast : Int.ofNat m / 2 ^ k = ((m / 2 ^ k : Nat) : Int) := by simp
    rw [hcast, Int.testBit, Nat.testBit_eq_decide_div_mod_eq, decide_eq_true_iff]
    omega
  | negSucc m =>
    rw [negSucc_ediv_two_pow, Int.testBit, Nat.testBit_eq_decide_div_mod_eq, Bool.not_eq_true',
      decide_eq_false_iff_not]
    omega

/-- R6, D3: a bit of the AND is set where it is set in both operands. -/
theorem bitAnd_bit (a b : Int) (k : Nat) :
    bitAnd a b / 2 ^ k % 2 = 1 ↔ a / 2 ^ k % 2 = 1 ∧ b / 2 ^ k % 2 = 1 := by
  simp only [← testBit_iff_ediv_emod, bitAnd_eq_land, Int.testBit_land, Bool.and_eq_true]

/-! ### The floor quotient (R6, D2) -/

/-- The floor quotient by a positive divisor. -/
theorem floorDiv_bounds_of_pos (a : Int) {b : Int} (hb : 0 < b) :
    floorDiv a b * b ≤ a ∧ a < (floorDiv a b + 1) * b := by
  refine ⟨?_, Int.lt_fdiv_add_one_mul_self a hb⟩
  rw [floorDiv, mul_comm]
  exact Int.mul_fdiv_self_le hb

/-- Both signs turned, the quotient stays. -/
theorem floorDiv_neg_neg (a b : Int) : floorDiv (-a) (-b) = floorDiv a b := Int.neg_fdiv_neg a b

/-- The floor quotient by a negative divisor: that of the two opposites, with the order turned. -/
theorem floorDiv_bounds_of_neg (a : Int) {b : Int} (hb : b < 0) :
    a ≤ floorDiv a b * b ∧ (floorDiv a b + 1) * b < a := by
  obtain ⟨hle, hlt⟩ := floorDiv_bounds_of_pos (-a) (Int.neg_pos_of_neg hb)
  rw [floorDiv_neg_neg, mul_neg] at hle hlt
  exact ⟨neg_le_neg_iff.1 hle, neg_lt_neg_iff.1 hlt⟩

/-! ### The floor modulus (R103, R104) and the flags (R81) -/

/-- A value and its reduction differ by a multiple of MS. -/
theorem dvd_sub_wrap (s : State) (a : Int) : (s.cfg.memorySize : Int) ∣ a - wrap s a := Int.dvd_self_sub_emod

theorem flagsOf_n_iff (v : Int) : (flagsOf v).n = true ↔ v < 0 := decide_eq_true_iff

theorem flagsOf_z_iff (v : Int) : (flagsOf v).z = true ↔ v = 0 := decide_eq_true_iff

/-! ### Loading -/

/-- R200: with a cell to build from, the load of the empty program is the initial state. -/
theorem load_nil {cfg : Config} (h : cfg.memorySize ≠ 0) (input : List Int) :
    load cfg input [] = .next (State.initial cfg input) := by
  rw [load, if_neg h]
  rfl

/-! ### The obligations -/

/-- Settles O12: the range and the divisibility fix the modulus, the bounds fix the quotient, and the AND is settled
bit by bit. -/
theorem integerOperations : Obligations.IntegerOperations :=
  ⟨fun s a hms =>
      have ⟨hlo, hhi⟩ := wrap_range hms a
      ⟨hlo, hhi, dvd_sub_wrap s a⟩,
    fun a _ hb => floorDiv_bounds_of_pos a hb,
    fun a _ hb => floorDiv_bounds_of_neg a hb,
    bitAnd_bit,
    fun v => ⟨flagsOf_n_iff v, flagsOf_z_iff v⟩⟩

/-- Settles O8: the defaults are the numbers written out, and nothing is placed by an empty program. -/
theorem resetParametersOfTheModel : Obligations.ResetParametersOfTheModel :=
  ⟨rfl, load_nil (by decide) []⟩

end Sys2Proof.Proofs.Scope

/-! PROOF. The state: reset and loading, the invariant and its preservation, which instruction writes which field, and
what a step never reads (spec/10_state.md; R34, R120, R200, R210). -/

namespace Sys2Proof.Proofs.StateFields

open Sys2Proof Sys2Proof.Machine

/-! ### The step as one run of signals (R120) -/

/-- R120: the signals of one instruction, from its fetch to the end of its execute phase. -/
def runInstruction (s : State) : SignalResult :=
  (fetch s).bind fun t => afterFetch t.ir (executeMicro t.ir.opcode) t

/-- R184: at the limit the run is stopped and nothing is fetched. -/
theorem step_of_limit {s : State} (hs : s.status = .running) (hl : s.cfg.limit ≤ s.instr) :
    step s = .next (reachLimit s) := by
  simp [step, hs, hl]

/-- R120: below the limit a step is one instruction's signals, then the flag latch and the count, or the event. -/
theorem step_of_running {s : State} (hs : s.status = .running) (hl : s.instr < s.cfg.limit) :
    step s = .next (settle (runInstruction s)) := by
  simp only [step, hs, not_le.2 hl, if_false, runInstruction]
  cases fetch s with
  | done t => exact exec_decodeWord t.ir t
  | raised e t => rfl

/-- R120, R184: the two ways a step has a next state, without a look into the instruction. -/
theorem step_next_settle {s t : State} (h : step s = .next t) :
    s.status = .running ∧
      ((s.cfg.limit ≤ s.instr ∧ t = reachLimit s) ∨
        (s.instr < s.cfg.limit ∧ t = settle (runInstruction s))) := by
  obtain ⟨hs, -⟩ := step_next_cases h
  refine ⟨hs, ?_⟩
  rcases le_or_gt s.cfg.limit s.instr with hl | hl
  · rw [step_of_limit hs hl] at h
    cases h
    exact .inl ⟨hl, rfl⟩
  · rw [step_of_running hs hl] at h
    cases h
    exact .inr ⟨hl, rfl⟩

/-- After the fetch of `w` the instruction goes on from the state that fetch hands over (R122). -/
theorem runInstruction_of_read {s : State} {w : MachineWord} (h : memRead s s.pc = some w) :
    runInstruction s = afterFetch w (executeMicro w.opcode) (fetched w s) := by
  rw [runInstruction, fetch_of_read h]
  rfl

/-- R100: a signal that raises leaves the state as it was. -/
theorem runSignal_raised {g : Signal} {s t : State} {e : Event} (h : runSignal g s = .raised e t) : t = s := by
  cases g with
  | latchAddr | latchPc | latchSp | latchToMem | latchPsFlags | output => cases h
  | latchDr =>
    simp only [runSignal, latchDr] at h
    split at h <;> cases h
    rfl
  | latchIr =>
    simp only [runSignal, latchIr] at h
    split at h <;> cases h
    rfl
  | latchAc sel =>
    cases sel with
    | fromAlu => cases h
    | fromInput =>
      simp only [runSignal, latchAc] at h
      split at h <;> cases h
      rfl
  | executeAluOp op l r =>
    simp only [runSignal, executeAluOp, aluCompute] at h
    split at h <;> cases h
    rfl
  | writeMemory =>
    simp only [runSignal, writeMemory] at h
    split at h <;> cases h
    rfl

/-- A relation that holds up to the end of a part and over the part after it holds over both. -/
theorem bind_rel {R : State → State → Prop} (trans : ∀ {a b c}, R a b → R b c → R a c) {r : SignalResult}
    {f : State → SignalResult} {s : State} (hr : R s r.state) (hf : ∀ u, R u (f u).state) :
    R s (r.bind f).state := by
  cases r with
  | done u => exact trans hr (hf u)
  | raised e u => exact hr

/-- A relation that every change of a signal keeps, and that `tick()` and the hand-over of the fetched word keep, holds
between the state an instruction starts in and the state its signals leave. -/
theorem runInstruction_rel {R : State → State → Prop} (refl : ∀ s, R s s)
    (trans : ∀ {a b c}, R a b → R b c → R a c) (change : ∀ {s t}, SignalChange s t → R s t)
    (ticks : ∀ s, R s (tick s)) (enters : ∀ w s, R s (enter w s)) (s : State) : R s (runInstruction s).state := by
  have signal : ∀ g s, R s (runSignal g s).state := by
    intro g s
    cases h : runSignal g s with
    | done t => exact change (runSignal_change h)
    | raised e t =>
      rw [runSignal_raised h]
      exact refl s
  have micro : ∀ m s, R s (runMicroprogram m s).state := runMicroprogram_rel refl trans signal ticks
  have resolve : ∀ (w : MachineWord) s,
      R s (if w.isIndirect then indirectResolve (enter w s) else .done (enter w s)).state := by
    intro w s
    split
    · exact trans (enters w s) (micro _ _)
    · exact enters w s
  have rest : ∀ w m s, R s (afterFetch w m s).state := fun w m s =>
    bind_rel (R := R) trans (resolve w s) fun u => micro (m u) u
  exact bind_rel (R := R) trans (micro _ s) fun t => rest t.ir _ t

/-! ### Only a running machine steps (R30, R183) -/

/-- Settles O39: a running machine stops at the limit or runs an instruction; each other status answers its fault. -/
theorem onlyRunningSteps : Obligations.OnlyRunningSteps := by
  intro s
  constructor
  · intro hs
    rcases le_or_gt s.cfg.limit s.instr with hl | hl
    · exact ⟨_, step_of_limit hs hl⟩
    · exact ⟨_, step_of_running hs hl⟩
  · intro hs
    unfold step
    split
    · next h => exact absurd h hs
    · exact ⟨_, rfl⟩
    · exact ⟨_, rfl⟩
    · exact ⟨_, rfl⟩

/-! ### The invariant (R16, R17, R40, R81, R120) -/

/-- R81: no value is both negative and zero. -/
theorem flagsOf_exclusive (v : Int) : ¬((flagsOf v).n = true ∧ (flagsOf v).z = true) := by
  simp only [flagsOf, decide_eq_true_eq]
  omega

/-- What a part of an instruction keeps: the parameters, the count, and with them the invariant. -/
structure KeepsInv (s t : State) : Prop where
  cfg : t.cfg = s.cfg
  instr : t.instr = s.instr
  inv : s.Inv → t.Inv

theorem KeepsInv.refl (s : State) : KeepsInv s s := ⟨rfl, rfl, id⟩

theorem KeepsInv.trans {a b c : State} (h : KeepsInv a b) (h' : KeepsInv b c) : KeepsInv a c :=
  ⟨h'.cfg.trans h.cfg, h'.instr.trans h.instr, h'.inv ∘ h.inv⟩

/-- R103, R104, R43, R81: PC and SP are latched reduced, a write is in range and canonical, flags are those of one
value. -/
theorem keepsInv_of_signalChange {s t : State} (h : SignalChange s t) : KeepsInv s t := by
  cases h with
  | latchPc =>
    refine ⟨rfl, rfl, fun hi => ?_⟩
    obtain ⟨hlo, hhi⟩ := wrap_range hi.size_pos s.alu.result
    exact { hi with pc_nonneg := hlo, pc_lt := hhi }
  | latchSp =>
    refine ⟨rfl, rfl, fun hi => ?_⟩
    obtain ⟨hlo, hhi⟩ := wrap_range hi.size_pos s.alu.result
    exact { hi with sp_nonneg := hlo, sp_lt := hhi }
  | latchPsFlags => exact ⟨rfl, rfl, fun hi => { hi with ps_flags := hi.alu_flags }⟩
  | compute op a b v h => exact ⟨rfl, rfl, fun hi => { hi with alu_flags := flagsOf_exclusive v }⟩
  | writeMemory i h =>
    exact ⟨rfl, rfl, fun hi =>
      { hi with
        mem_wf := Memory.wf_setCell i _ hi.mem_wf
        mem_fits := Memory.fits_setCell (writeIndex_lt h) _ hi.mem_fits }⟩
  | output =>
    unfold output
    split
    · exact ⟨rfl, rfl, fun hi => { hi with }⟩
    · exact .refl s
  | latchAddr | latchDr w h | latchIr w h | latchAc | readInput c rest h | latchToMem =>
    exact ⟨rfl, rfl, fun hi => { hi with }⟩

/-- The signals of a whole instruction keep the invariant and do not count it. -/
theorem runInstruction_keepsInv (s : State) : KeepsInv s (runInstruction s).state :=
  runInstruction_rel KeepsInv.refl KeepsInv.trans keepsInv_of_signalChange
    (fun _ => ⟨rfl, rfl, fun hi => { hi with }⟩) (fun _ _ => ⟨rfl, rfl, fun hi => { hi with }⟩) s

/-- R120, R125: below the limit the end of an instruction keeps the invariant: it counts one at most, and PS takes the
flags that the ALU holds. -/
theorem settle_inv {r : SignalResult} (hi : r.state.Inv) (hl : r.state.instr < r.state.cfg.limit) : (settle r).Inv := by
  cases r with
  | done u => exact { hi with ps_flags := hi.alu_flags, instr_le := hl }
  | raised e u =>
    cases e with
    | halt c =>
      refine { hi with instr_le := ?_ }
      show (if u.cfg.countHalting then u.instr + 1 else u.instr) ≤ u.cfg.limit
      split
      · exact hl
      · exact hi.instr_le
    | fatal f => exact { hi with }

/-- Settles O47: every signal keeps the invariant, so every instruction does, and the limit is compared before the
count. -/
theorem stepKeepsInvariant : Obligations.StepKeepsInvariant := by
  intro s t hi h
  obtain ⟨-, ⟨-, rfl⟩ | ⟨hl, rfl⟩⟩ := step_next_settle h
  · exact { hi with }
  · have hk := runInstruction_keepsInv s
    exact settle_inv (hk.inv hi) (by rw [hk.instr, hk.cfg]; exact hl)

/-- Settles O50: PC lies in memory, so the read of the fetch is admitted. -/
theorem soundFetchNeverFaults : Obligations.SoundFetchNeverFaults := by
  intro s hi
  have hread : memRead s s.pc = some (readCell s.mem s.pc.toNat) := memRead_eq_some.2 ⟨hi.pc_nonneg, hi.pc_lt, rfl⟩
  exact ⟨_, _, hread, fetch_of_read hread, rfl, rfl⟩

/-! ### Reset and loading (R34, R200) -/

/-- The initial state with a sound memory placed in it has the invariant. -/
theorem initial_inv {cfg : Config} (hms : 1 ≤ cfg.memorySize) (input : List Int) {m : Memory} (hwf : Memory.wf m)
    (hfits : Memory.fits cfg.memorySize m) : State.Inv { State.initial cfg input with mem := m } where
  size_pos := hms
  pc_nonneg := le_rfl
  pc_lt := Int.natCast_pos.2 hms
  sp_nonneg := le_rfl
  sp_lt := Int.natCast_pos.2 hms
  mem_wf := hwf
  mem_fits := hfits
  alu_flags := fun h => Bool.false_ne_true h.1
  ps_flags := fun h => Bool.false_ne_true h.1
  instr_le := Nat.zero_le _

/-- Nothing is counted yet, so every bound on TICK is 0. -/
theorem initial_tickBounds (cfg : Config) (input : List Int) (m : Memory) :
    State.TickBounds { State.initial cfg input with mem := m } where
  completed := fun _ => ⟨le_rfl, le_rfl⟩
  always := le_rfl

/-- R200, D22: a word of the artifact that is accepted names a cell. -/
theorem decodeArtifactWord_index_lt {ms i : Nat} {a : ArtifactWord} {w : MachineWord}
    (h : decodeArtifactWord ms a = .ok (i, w)) : i < ms := by
  have toNat_lt : a.indexInRange ms = true → a.index.toNat < ms := by
    simp only [ArtifactWord.indexInRange, decide_eq_true_eq]
    omega
  unfold decodeArtifactWord at h
  split at h
  · cases h
  · split at h
    · cases h
    · split at h
      · next hr => cases h; exact toNat_lt hr
      · cases h
    · split at h
      · next hr => cases h; exact toNat_lt hr
      · cases h

/-- R200: placing words keeps memory canonical and inside its MS cells. -/
theorem placeProgram_wf_fits {ms : Nat} {program : List ArtifactWord} {m m' : Memory}
    (h : placeProgram ms program m = .ok m') (hwf : Memory.wf m) (hfits : Memory.fits ms m) :
    Memory.wf m' ∧ Memory.fits ms m' := by
  induction program generalizing m with
  | nil => cases h; exact ⟨hwf, hfits⟩
  | cons a rest ih =>
    unfold placeProgram at h
    split at h
    · cases h
    · next i w hd =>
      exact ih h (Memory.wf_setCell i w hwf) (Memory.fits_setCell (decodeArtifactWord_index_lt hd) w hfits)

/-- R200: what a load that is not refused has built. -/
theorem load_eq_next {cfg : Config} {input : List Int} {program : List ArtifactWord} {s : State}
    (h : load cfg input program = .next s) :
    1 ≤ cfg.memorySize ∧ ∃ m, placeProgram cfg.memorySize program [] = .ok m ∧
      s = { State.initial cfg input with mem := m } := by
  unfold load at h
  split at h
  · cases h
  · next hms =>
    split at h
    · cases h
    · next m hm =>
      cases h
      exact ⟨Nat.one_le_iff_ne_zero.2 hms, m, hm, rfl⟩

/-- Settles O6: the words are placed one by one into the empty memory, each in a cell of the array. -/
theorem loadedStateSound : Obligations.LoadedStateSound := by
  intro cfg input program s h
  obtain ⟨hms, m, hm, rfl⟩ := load_eq_next h
  obtain ⟨hwf, hfits⟩ := placeProgram_wf_fits hm Memory.wf_nil (List.forall_mem_nil _)
  exact ⟨initial_inv hms input hwf hfits, initial_tickBounds cfg input m⟩

/-- Settles O49: the reset state is the initial state of the default parameters, with nothing placed. -/
theorem resetSatisfiesInvariants : Obligations.ResetSatisfiesInvariants :=
  ⟨initial_inv (by decide) [] Memory.wf_nil (List.forall_mem_nil _), initial_tickBounds .default [] []⟩

/-- Settles O7: the empty memory reads blank in every cell, and every other value stands in the initializer. -/
theorem resetLeavesStatedValues : Obligations.ResetLeavesStatedValues :=
  fun _ _ => ⟨readCell_nil, rfl, rfl, rfl, rfl, rfl, rfl, rfl, rfl, rfl, rfl, rfl, rfl, rfl, rfl, rfl, rfl⟩

/-! ### What the instructions write (R11, R14, R16, R17, R26, R27, R31) -/

/-- The fields that an instruction of opcode `op`, run from the state `u` to `t`, leaves as they are: each register
unless `op` is one of its writers, and the parameters always. -/
structure KeepsUnwritten (op : Opcode) (u t : State) : Prop where
  cfg : t.cfg = u.cfg
  sp : op ∉ [.push, .pop] → t.sp = u.sp
  toMem : op ∉ [.push, .store] → t.toMem = u.toMem
  ac : op ∉ [.inc, .dec, .load, .add, .sub, .mul, .div, .pop, .input] → t.ac = u.ac
  mem : op ∉ [.push, .store] → t.mem = u.mem
  pc : op ∉ [.jg, .jz, .jnz, .jmp] → t.pc = u.pc
  inBuf : op ≠ .input → t.inBuf = u.inBuf
  outBuf : op ≠ .out → t.outBuf = u.outBuf
  diag : op ≠ .div → t.diag = u.diag

/-- R170: only the four branches have a condition that can hold. -/
theorem mem_branches_of_branchesIn {op : Opcode} {u : State} (h : branchesIn op u = true) :
    op ∈ [.jg, .jz, .jnz, .jmp] := by
  cases op with
  | jg | jz | jnz | jmp => simp
  | _ => cases h

/-- R140 to R175: each end of an execute phase changes the registers of its opcode alone. -/
theorem executeEnd_keepsUnwritten {u t : State} {op : Opcode} (h : ExecuteEnd u op t) : KeepsUnwritten op u t := by
  cases h with
  | taken op h =>
    exact { cfg := rfl, sp := fun _ => rfl, toMem := fun _ => rfl, ac := fun _ => rfl, mem := fun _ => rfl,
            pc := fun hop => absurd (mem_branches_of_branchesIn h) hop,
            inBuf := fun _ => rfl, outBuf := fun _ => rfl, diag := fun _ => rfl }
  | _ => constructor <;> simp

/-- Indirect resolution writes none of the registers that have writers. -/
theorem keepsUnwritten_of_executeEntry {w : MachineWord} {p : Int} {op : Opcode} {s t : State}
    (h : KeepsUnwritten op (executeEntry w p s) t) : KeepsUnwritten op s t where
  cfg := h.cfg.trans (executeEntry_cfg w p s)
  sp hop := (h.sp hop).trans (executeEntry_sp w p s)
  toMem hop := (h.toMem hop).trans (executeEntry_toMem w p s)
  ac hop := (h.ac hop).trans (executeEntry_ac w p s)
  mem hop := (h.mem hop).trans (executeEntry_mem w p s)
  pc hop := (h.pc hop).trans (executeEntry_pc w p s)
  inBuf hop := (h.inBuf hop).trans (executeEntry_inBuf w p s)
  outBuf hop := (h.outBuf hop).trans (executeEntry_outBuf w p s)
  diag hop := (h.diag hop).trans (executeEntry_diag w p s)

/-- After the fetch of `w`, the rest of the step writes only what the opcode of `w` writes. -/
theorem step_keepsUnwritten {s t : State} {w : MachineWord} (hl : s.instr < s.cfg.limit)
    (hw : memRead s s.pc = some w) (h : step s = .next t) : KeepsUnwritten w.opcode (fetched w s) t := by
  rcases step_executed hl hw h with ⟨-, rfl⟩ | ⟨p, -, hend⟩
  · constructor <;> intros <;> rfl
  · exact keepsUnwritten_of_executeEntry (executeEnd_keepsUnwritten hend)

/-- Settles O44: fetch itself changes of these registers only PC, which it leaves one higher mod MS. -/
theorem writersOfEachRegister : Obligations.WritersOfEachRegister := by
  intro s t w hl hw h
  have hk := step_keepsUnwritten hl hw h
  exact ⟨hk.cfg, hk.sp, hk.toMem, hk.ac, hk.mem, hk.pc, hk.inBuf, hk.outBuf, hk.diag⟩

/-! ### The buffers (R26, R27) -/

/-- R26, R27: OUT_BUF as it was or one element longer at its end, IN_BUF as it was or without its head. -/
def BuffersMove (s t : State) : Prop :=
  (t.outBuf = s.outBuf ∨ ∃ v, t.outBuf = s.outBuf ++ [v]) ∧ (t.inBuf = s.inBuf ∨ ∃ c, s.inBuf = c :: t.inBuf)

theorem buffersMove_of_eq {s t : State} (ho : t.outBuf = s.outBuf) (hi : t.inBuf = s.inBuf) : BuffersMove s t :=
  ⟨.inl ho, .inl hi⟩

/-- R159, R160: only out and in move a buffer, and each moves one. -/
theorem executeEnd_buffersMove {u t : State} {op : Opcode} (h : ExecuteEnd u op t) : BuffersMove u t := by
  cases h with
  | out =>
    refine ⟨?_, .inl rfl⟩
    by_cases hp : u.dr = outputPort
    · exact .inr ⟨u.ac, by simp [hp]⟩
    · exact .inl (by simp [hp])
  | input c rest h => exact ⟨.inl rfl, .inr ⟨c, h⟩⟩
  | _ => exact buffersMove_of_eq rfl rfl

/-- Settles O46: the limit, the fetch and indirect resolution leave the buffers alone, and the execute phase moves one
of them at most. -/
theorem buffersMoveOneWay : Obligations.BuffersMoveOneWay := by
  intro s t h
  obtain ⟨-, ⟨-, rfl⟩ | ⟨hl, w, hw, -⟩ | ⟨-, -, rfl⟩⟩ := step_next_cases h
  · exact buffersMove_of_eq rfl rfl
  · rcases step_executed hl hw h with ⟨-, rfl⟩ | ⟨p, -, hend⟩
    · exact buffersMove_of_eq rfl rfl
    · simpa [BuffersMove, fetched] using executeEnd_buffersMove hend
  · exact buffersMove_of_eq rfl rfl

/-! ### What the next instruction never reads (R24, R210) -/

/-- Settles O51: fetch overwrites every one of these fields with values made of PC and of the word fetched. -/
theorem staleLatchesNeverRead : Obligations.StaleLatchesNeverRead := by
  intro s w alu l addr dr ir hs hl hw
  rw [step_of_running hs hl, step_of_running (by exact hs) (by exact hl), runInstruction_of_read hw,
    runInstruction_of_read (by exact hw)]
  rfl

/-! ### TICK and DIAG (R31, R191, R211)

A run from a state with another TICK and DIAG goes the same way, and adds the same ticks and diagnostics. -/

/-- The state with TICK and DIAG set. -/
def stamped (n : Nat) (d : List Diagnostic) (s : State) : State := { s with tick := n, diag := d }

/-- An answer with its state's TICK and DIAG set. -/
def stampedResult (n : Nat) (d : List Diagnostic) : SignalResult → SignalResult
  | .done s => .done (stamped n d s)
  | .raised e s => .raised e (stamped n d s)

/-- From `s`, `f` adds the same number of ticks and the same diagnostics whatever TICK and DIAG are, and its answer
depends on them in nothing else. -/
def OnlyAdds (f : State → SignalResult) (s : State) : Prop :=
  ∃ (k : Nat) (e : List Diagnostic), ∀ n d, f (stamped n d s) = stampedResult (n + k) (d ++ e) (f s)

theorem onlyAdds_of_nothing {f : State → SignalResult} {s : State}
    (h : ∀ n d, f (stamped n d s) = stampedResult n d (f s)) : OnlyAdds f s :=
  ⟨0, [], fun n d => by rw [h, List.append_nil, Nat.add_zero]⟩

theorem onlyAdds_bind {f g : State → SignalResult} {s : State} (hf : OnlyAdds f s) (hg : ∀ t, OnlyAdds g t) :
    OnlyAdds (fun u => (f u).bind g) s := by
  obtain ⟨k, e, hf⟩ := hf
  cases hr : f s with
  | raised ev t => exact ⟨k, e, fun n d => by simp [hf, hr, stampedResult]⟩
  | done t =>
    obtain ⟨k', e', hg⟩ := hg t
    exact ⟨k + k', e ++ e', fun n d => by simp [hf, hr, stampedResult, hg, Nat.add_assoc]⟩

/-- R91, R185: an ALU computation adds the diagnostic of a division by zero, or none. -/
theorem aluCompute_onlyAdds (op : AluOp) (a b : Option Int) (s : State) : OnlyAdds (aluCompute op a b) s := by
  have added : ∀ d, aluDiagnostics op b d = d ++ aluDiagnostics op b [] := by
    intro d
    cases op with
    | div => simp only [aluDiagnostics]; split <;> simp
    | _ => simp [aluDiagnostics]
  cases hv : aluValue op a b with
  | none => exact onlyAdds_of_nothing fun n d => by simp [aluCompute, hv, stampedResult]
  | some v =>
    refine ⟨0, aluDiagnostics op b [], fun n d => ?_⟩
    simp [aluCompute, hv, stampedResult, ← added, aluWrite, stamped]

theorem runSignal_onlyAdds (g : Signal) (s : State) : OnlyAdds (runSignal g) s := by
  cases g with
  | executeAluOp op l r => exact aluCompute_onlyAdds op (l.map (leftOperand s)) (r.map (rightOperand s)) s
  | latchAddr | latchPc | latchSp | latchToMem | latchPsFlags => exact onlyAdds_of_nothing fun _ _ => rfl
  | latchDr =>
    refine onlyAdds_of_nothing fun n d => ?_
    cases h : memRead s s.addr with
    | some w => exact (latchDr_of_read (s := stamped n d s) h).trans (by rw [runSignal, latchDr_of_read h]; rfl)
    | none => exact (latchDr_of_fault (s := stamped n d s) h).trans (by rw [runSignal, latchDr_of_fault h]; rfl)
  | latchIr =>
    refine onlyAdds_of_nothing fun n d => ?_
    cases h : memRead s s.addr with
    | some w => exact (latchIr_of_read (s := stamped n d s) h).trans (by rw [runSignal, latchIr_of_read h]; rfl)
    | none => exact (latchIr_of_fault (s := stamped n d s) h).trans (by rw [runSignal, latchIr_of_fault h]; rfl)
  | latchAc sel =>
    refine onlyAdds_of_nothing fun n d => ?_
    cases sel with
    | fromAlu => rfl
    | fromInput =>
      cases h : s.inBuf with
      | nil => exact (latchAc_of_empty (s := stamped n d s) h).trans (by rw [runSignal, latchAc_of_empty h]; rfl)
      | cons c rest =>
        exact (latchAc_of_input (s := stamped n d s) h).trans (by rw [runSignal, latchAc_of_input h]; rfl)
  | output =>
    refine onlyAdds_of_nothing fun n d => ?_
    by_cases h : s.dr = outputPort <;> simp [runSignal, output, stamped, stampedResult, h]
  | writeMemory =>
    refine onlyAdds_of_nothing fun n d => ?_
    cases h : writeIndex s.cfg.memorySize s.addr with
    | some i =>
      exact (writeMemory_of_index (s := stamped n d s) h).trans (by rw [runSignal, writeMemory_of_index h]; rfl)
    | none =>
      exact (writeMemory_of_fault (s := stamped n d s) h).trans (by rw [runSignal, writeMemory_of_fault h]; rfl)

theorem runOp_onlyAdds (o : MicroOp) (s : State) : OnlyAdds (runOp o) s := by
  cases o with
  | signal g => exact runSignal_onlyAdds g s
  | raiseHalt => exact onlyAdds_of_nothing fun _ _ => rfl

theorem runOps_onlyAdds (os : List MicroOp) (s : State) : OnlyAdds (runOps os) s := by
  induction os generalizing s with
  | nil => exact onlyAdds_of_nothing fun _ _ => rfl
  | cons o os ih => exact onlyAdds_bind (runOp_onlyAdds o s) ih

theorem tick_onlyAdds (s : State) : OnlyAdds (fun t => .done (tick t)) s :=
  ⟨1, [], fun n d => by rw [List.append_nil]; rfl⟩

theorem runMicroprogram_onlyAdds (m : Microprogram) (s : State) : OnlyAdds (runMicroprogram m) s := by
  induction m generalizing s with
  | nil => exact onlyAdds_of_nothing fun _ _ => rfl
  | cons g gs ih => exact onlyAdds_bind (onlyAdds_bind (runOps_onlyAdds g s) tick_onlyAdds) ih

/-- R170: no microprogram is chosen by TICK or DIAG. -/
theorem executeMicro_stamped (op : Opcode) (n : Nat) (d : List Diagnostic) (s : State) :
    executeMicro op (stamped n d s) = executeMicro op s := by cases op <;> rfl

theorem execute_onlyAdds (op : Opcode) (s : State) :
    OnlyAdds (fun t => runMicroprogram (executeMicro op t) t) s := by
  obtain ⟨k, e, h⟩ := runMicroprogram_onlyAdds (executeMicro op s) s
  exact ⟨k, e, fun n d => by simp only [executeMicro_stamped, h]⟩

theorem resolve_onlyAdds (w : MachineWord) (s : State) :
    OnlyAdds (fun t => if w.isIndirect then indirectResolve (enter w t) else .done (enter w t)) s := by
  cases hi : w.isIndirect
  · exact onlyAdds_of_nothing fun _ _ => rfl
  · exact runMicroprogram_onlyAdds [indirectT1, indirectT2] (enter w s)

theorem runInstruction_onlyAdds (s : State) : OnlyAdds runInstruction s :=
  onlyAdds_bind (runMicroprogram_onlyAdds [fetchT1, fetchT2] s) fun t =>
    onlyAdds_bind (resolve_onlyAdds t.ir t) (execute_onlyAdds t.ir.opcode)

/-- Neither the flag latch nor an event looks at TICK or DIAG. -/
theorem settle_stampedResult (n : Nat) (d : List Diagnostic) (r : SignalResult) :
    settle (stampedResult n d r) = stamped n d (settle r) := by
  cases r with
  | done s => rfl
  | raised e s => cases e <;> rfl

/-- Settles O52: what a run adds is the same from every TICK and DIAG, its own among them. -/
theorem tickAndDiagNeverRead : Obligations.TickAndDiagNeverRead := by
  intro s t n d h
  obtain ⟨hs, ⟨hl, rfl⟩ | ⟨hl, rfl⟩⟩ := step_next_settle h
  · exact ⟨0, [.limitExceeded], rfl, rfl, step_of_limit (s := stamped n d s) hs hl⟩
  · obtain ⟨k, e, hadds⟩ := runInstruction_onlyAdds s
    have settled : ∀ n d, settle (runInstruction (stamped n d s)) =
        stamped (n + k) (d ++ e) (settle (runInstruction s)) := fun n d => by rw [hadds, settle_stampedResult]
    have own : settle (runInstruction s) = stamped (s.tick + k) (s.diag ++ e) (settle (runInstruction s)) :=
      settled s.tick s.diag
    refine ⟨k, e, congrArg State.tick own, congrArg State.diag own, ?_⟩
    exact (step_of_running (s := stamped n d s) hs hl).trans (congrArg _ (settled n d))

end Sys2Proof.Proofs.StateFields

/-! PROOF. Main memory: what the signals read and write, the operand of an instruction, and the cell a step writes
(spec/20_memory.md R42, R43, R50; R63, R67, R102, R105, R112). -/

namespace Sys2Proof.Proofs.MainMemory

open Sys2Proof Sys2Proof.Machine Sys2Proof.Proofs.StateFields

/-! ### A read after a write, and the cell a write address names (R43, R49) -/

theorem readCell_setCell (i j : Nat) (w : MachineWord) (m : Memory) :
    readCell (setCell i w m) j = if j = i then w else readCell m j := by
  split
  · next h => rw [h, readCell_setCell_same]
  · next h => exact readCell_setCell_other h w m

/-- R43, D7: the admitted write addresses are -MS to MS-1, and the negative ones count from the end. -/
theorem writeIndex_eq_some {ms : Nat} {a : Int} {i : Nat} :
    writeIndex ms a = some i ↔ -(ms : Int) ≤ a ∧ a < ms ∧ (i : Int) = if a < 0 then a + ms else a := by
  unfold writeIndex
  split
  · rw [Option.some_inj]; omega
  · split
    · rw [Option.some_inj]; omega
    · simp only [reduceCtorEq, false_iff]; omega

/-- R43: every admitted write address names a cell. -/
theorem exists_writeIndex {ms : Nat} {a : Int} (h0 : -(ms : Int) ≤ a) (h1 : a < ms) : ∃ i, writeIndex ms a = some i := by
  refine Option.ne_none_iff_exists'.1 fun h => ?_
  have := writeIndex_eq_none.1 h
  omega

/-! ### The reads that fault (R42) -/

/-- R42, D8: a read faults below 0 and from MS on. -/
theorem memRead_eq_none_iff_outside {s : State} {a : Int} :
    memRead s a = none ↔ a < 0 ∨ (s.cfg.memorySize : Int) ≤ a := by
  rw [memRead_eq_none]
  omega

/-! ### The signals and the operand -/

/-- Settles O16: latch_dr and latch_ir are one checked read each. -/
theorem readingSignalsCheckAddress : Obligations.ReadingSignalsCheckAddress := by
  intro s
  constructor
  · rintro ⟨hlo, hhi⟩
    have hread : memRead s s.addr = some (readCell s.mem s.addr.toNat) := memRead_eq_some.2 ⟨hlo, hhi, rfl⟩
    exact ⟨latchDr_of_read hread, latchIr_of_read hread⟩
  · intro hout
    have hfault : memRead s s.addr = none := memRead_eq_none_iff_outside.2 hout
    exact ⟨latchDr_of_fault hfault, latchIr_of_fault hfault⟩

/-- Settles O17: the write is of the cell that the address names, and a read of another cell does not see it. -/
theorem writeMemoryReplacesOneCell : Obligations.WriteMemoryReplacesOneCell := by
  intro s
  constructor
  · rintro ⟨hlo, hhi⟩
    obtain ⟨i, hi⟩ := exists_writeIndex hlo hhi
    obtain ⟨-, -, hcell⟩ := writeIndex_eq_some.1 hi
    refine ⟨_, writeMemory_of_index hi, fun j => ?_⟩
    rw [readCell_setCell, ← hcell]
    simp only [Nat.cast_inj, MachineWord.nopOf]
  · exact fun hout => writeMemory_of_fault (writeIndex_eq_none.2 hout)

/-- Settles O20: an indirect operand is the `value` of an admitted read, and a direct one reads nothing. -/
theorem operandAddresses : Obligations.OperandAddresses := by
  intro s a p w
  refine ⟨?_, memRead_eq_none_iff_outside, ?_, ?_, ?_⟩
  · rw [memRead_eq_some, eq_comm (a := w)]
  · simp [operandOf_eq_some]
  · simp [operandOf_eq_some, memRead_eq_some, and_assoc, eq_comm (a := p)]
  · simp [operandOf_eq_none, memRead_eq_none_iff_outside]

/-! ### The cell a step writes (R50, R112, R144, R152) -/

/-- The cell that an instruction of opcode `op` with the operand `p`, run from `s`, writes: push the one that `SP - 1`
names, store the one that its operand names, every other opcode none. -/
def writtenCell (op : Opcode) (p : Int) (s : State) : Option Nat :=
  match op with
  | .push => writeIndex s.cfg.memorySize (s.sp - 1)
  | .store => writeIndex s.cfg.memorySize p
  | .nop | .inc | .dec | .halt | .pop | .load | .add | .sub | .mul | .div | .out | .input | .cmp | .test | .jg | .jz
  | .jnz | .jmp => none

/-- Memory once AC is written as a nop word to the cell `c`, if there is one. -/
def memStoringAc (c : Option Nat) (s : State) : Memory :=
  match c with
  | some i => setCell i (.nopOf s.ac) s.mem
  | none => s.mem

/-- No cell but `i` changes, and `i` holds AC as a nop word. -/
theorem readCell_memStoringAc_some (i : Nat) (s : State) (j : Nat) :
    readCell (memStoringAc (some i) s) j = if j = i then ⟨.nop, s.ac, false⟩ else readCell s.mem j :=
  readCell_setCell i j _ s.mem

/-- R50: each cell is as it was or a nop word. -/
theorem readCell_memStoringAc (c : Option Nat) (s : State) (j : Nat) :
    readCell (memStoringAc c s) j = readCell s.mem j ∨ ∃ v, readCell (memStoringAc c s) j = ⟨.nop, v, false⟩ := by
  cases c with
  | none => exact .inl rfl
  | some i =>
    rw [readCell_memStoringAc_some]
    split
    · exact .inr ⟨s.ac, rfl⟩
    · exact .inl rfl

theorem writtenCell_of_other {op : Opcode} (hpush : op ≠ .push) (hstore : op ≠ .store) (p : Int) (s : State) :
    writtenCell op p s = none := by
  cases op with
  | push => exact absurd rfl hpush
  | store => exact absurd rfl hstore
  | _ => rfl

/-- R144, R152: an execute phase writes the cell of its opcode, with the operand in DR, and no other. -/
theorem executeEnd_mem {u t : State} {op : Opcode} (h : ExecuteEnd u op t) :
    t.mem = memStoringAc (writtenCell op u.dr u) u := by
  cases op with
  | push =>
    cases h with
    | push i hi => simp only [writtenCell, hi, retire_mem, memStoringAc]
    | pushFault hi => simp only [writtenCell, hi, takeEvent_fatal_mem, memStoringAc]
    | readFault _ hop | taken _ hop | notTaken _ _ hop | notTakenIdle _ _ hop => cases hop
  | store =>
    cases h with
    | store i hi => simp only [writtenCell, hi, retire_mem, memStoringAc]
    | storeFault hi => simp only [writtenCell, hi, takeEvent_fatal_mem, memStoringAc]
    | readFault _ hop | taken _ hop | notTaken _ _ hop | notTakenIdle _ _ hop => cases hop
  | _ => exact (executeEnd_keepsUnwritten h).mem (by decide)

/-- Fetch and indirect resolution change nothing that the write looks at, so the cell and its contents are those the
state before the step gives. -/
theorem memStoringAc_executeEntry {s : State} {w : MachineWord} {p : Int}
    (hp : operandOf s w.value w.isIndirect = some p) (op : Opcode) :
    let u := executeEntry w p (fetched w s)
    memStoringAc (writtenCell op u.dr u) u = memStoringAc (writtenCell op p s) s := by
  have hdr : (executeEntry w p (fetched w s)).dr = p := executeEntry_dr (s := fetched w s) hp
  have hcell : writtenCell op p (executeEntry w p (fetched w s)) = writtenCell op p s := by
    cases op with
    | push | store => simp [writtenCell, fetched]
    | _ => rfl
  simp only [hdr, hcell, memStoringAc, executeEntry_ac, executeEntry_mem]
  rfl

section Step

variable {s t : State} {w : MachineWord} (hl : s.instr < s.cfg.limit) (hw : memRead s s.pc = some w)
  (h : step s = .next t)

include hl hw h

/-- The memory that a step leaves whose operand resolves. -/
theorem step_mem_of_operand {p : Int} (hp : operandOf s w.value w.isIndirect = some p) :
    t.mem = memStoringAc (writtenCell w.opcode p s) s := by
  rcases step_executed hl hw h with ⟨hnone, -⟩ | ⟨q, hq, hend⟩
  · cases hp.symm.trans hnone
  · cases hp.symm.trans hq
    exact (executeEnd_mem hend).trans (memStoringAc_executeEntry hp w.opcode)

/-- R123: a step whose operand does not resolve writes nothing. -/
theorem step_mem_of_operand_fault (hp : operandOf s w.value w.isIndirect = none) : t.mem = s.mem := by
  rcases step_executed hl hw h with ⟨-, rfl⟩ | ⟨q, hq, -⟩
  · rfl
  · cases hp.symm.trans hq

/-- Where no operand gives the instruction a cell to write, the step writes nothing. -/
theorem step_mem_of_no_cell (hnone : ∀ p, writtenCell w.opcode p s = none) : t.mem = s.mem := by
  cases hp : operandOf s w.value w.isIndirect with
  | none => exact step_mem_of_operand_fault hl hw h hp
  | some p => rw [step_mem_of_operand hl hw h hp, hnone p, memStoringAc]

/-- Where the instruction has a cell to write, the step writes AC there and nothing elsewhere. -/
theorem step_readCell_of_cell {p : Int} {i : Nat} (hp : operandOf s w.value w.isIndirect = some p)
    (hi : writtenCell w.opcode p s = some i) (j : Nat) :
    readCell t.mem j = if j = i then ⟨.nop, s.ac, false⟩ else readCell s.mem j := by
  rw [step_mem_of_operand hl hw h hp, hi, readCell_memStoringAc_some]

end Step

/-- R120, R184: at the limit nothing is fetched, and nothing written. -/
theorem step_mem_of_limit {s t : State} (h : step s = .next t) (hl : s.cfg.limit ≤ s.instr) : t.mem = s.mem := by
  obtain ⟨-, ⟨-, rfl⟩ | ⟨hlt, -⟩ | ⟨hlt, -⟩⟩ := step_next_cases h
  · rfl
  · omega
  · omega

/-- R105: a fetch that faults has written nothing. -/
theorem step_mem_of_fetch_fault {s t : State} (h : step s = .next t) (hn : memRead s s.pc = none) : t.mem = s.mem := by
  obtain ⟨-, ⟨-, rfl⟩ | ⟨-, w, hw, -⟩ | ⟨-, -, rfl⟩⟩ := step_next_cases h
  · rfl
  · cases hn.symm.trans hw
  · rfl

/-- Every step writes AC to one cell or writes nothing. -/
theorem exists_step_mem {s t : State} (h : step s = .next t) : ∃ c, t.mem = memStoringAc c s := by
  rcases le_or_gt s.cfg.limit s.instr with hl | hl
  · exact ⟨none, step_mem_of_limit h hl⟩
  · cases hw : memRead s s.pc with
    | none => exact ⟨none, step_mem_of_fetch_fault h hw⟩
    | some w =>
      cases hp : operandOf s w.value w.isIndirect with
      | none => exact ⟨none, step_mem_of_operand_fault hl hw h hp⟩
      | some p => exact ⟨_, step_mem_of_operand hl hw h hp⟩

/-- Settles O45: the cell that a step writes is that of its opcode and operand, and it writes AC there. -/
theorem writtenCellsAreNopWords : Obligations.WrittenCellsAreNopWords := by
  intro s t h
  refine ⟨fun w hl hw => ⟨?push, ?store, ?pushFault, ?storeFault, ?operandFault, ?other⟩, step_mem_of_limit h,
    step_mem_of_fetch_fault h, ?nopWords⟩
  case push =>
    intro p i hop hp hi
    exact step_readCell_of_cell hl hw h hp (by rw [hop]; exact hi)
  case store =>
    intro ea i hop hp hi
    exact step_readCell_of_cell hl hw h hp (by rw [hop]; exact hi)
  case pushFault =>
    intro hop hi
    exact step_mem_of_no_cell hl hw h fun p => by rw [hop]; exact hi
  case storeFault =>
    intro ea hop hp hi
    have hnone : writtenCell w.opcode ea s = none := by rw [hop]; exact hi
    rw [step_mem_of_operand hl hw h hp, hnone, memStoringAc]
  case operandFault => exact step_mem_of_operand_fault hl hw h
  case other =>
    intro hpush hstore
    exact step_mem_of_no_cell hl hw h fun p => writtenCell_of_other hpush hstore p s
  case nopWords =>
    obtain ⟨c, hmem⟩ := exists_step_mem h
    intro j
    rw [hmem]
    exact readCell_memStoringAc c s j

end Sys2Proof.Proofs.MainMemory

/-! PROOF. The encoding: the decoder against the encoder, on machine words, on commands to the ALU and on the objects of
the artifact, and the loader's placing of those objects (spec/30_encoding.md R60 to R68; R82, R200). -/

namespace Sys2Proof.Proofs.Encoding

open Sys2Proof Sys2Proof.Machine

/-! ### Instructions and machine words (R60 to R64, R68) -/

/-- R60 to R64, R82: no bit of an encoding is dropped, row by row of the opcode table. -/
theorem decode_encode (i : Instr) : decode (encode i) = .ok i :=
  open Laws.RoundTrip in
  Instr.casesOn (motive := Laws.RoundTrip.Statement) i nop inc dec halt push pop load store add sub mul div out input
    cmp test jg jz jnz jmp aluIncA aluDecA aluIncB aluDecB aluAdd aluSub aluMul aluDiv aluCmp aluTest aluSkipA aluSkipB

/-- R64, R68: a machine word is the encoding of the instruction its tag names. -/
theorem encode_decodeWord (w : MachineWord) : encode (decodeWord w) = .word w := by
  obtain ⟨op, v, d⟩ := w
  cases op <;> rfl

/-! ### Commands to the ALU (R82) -/

theorem wellFormed_iff {c : AluCommand} :
    c.wellFormed = true ↔ (c.op.usesA = true → ∃ x, c.a = some x) ∧ (c.op.usesB = true → ∃ y, c.b = some y) := by
  simp [AluCommand.wellFormed, Option.isSome_iff_exists, imp_iff_not_or]

theorem not_wellFormed_iff {c : AluCommand} :
    c.wellFormed = false ↔ (c.op.usesA = true ∧ c.a = none) ∨ (c.op.usesB = true ∧ c.b = none) := by
  simp only [AluCommand.wellFormed, Bool.and_eq_false_iff, Bool.or_eq_false_iff, Bool.not_eq_false',
    Option.isSome_eq_false_iff, Option.isNone_iff_eq_none]

/-- R82: with the operands its operation uses, a command is an instruction's. -/
theorem decode_command_of_wellFormed {c : AluCommand} (h : c.wellFormed = true) :
    ∃ i, decode (.command c) = .ok i ∧ encode i = normalCode (.command c) := by
  obtain ⟨ha, hb⟩ := wellFormed_iff.1 h
  obtain ⟨op, a, b⟩ := c
  cases op with
  | incA | decA | skipA =>
    obtain ⟨x, rfl⟩ := ha rfl
    exact ⟨_, rfl, rfl⟩
  | incB | decB | skipB =>
    obtain ⟨y, rfl⟩ := hb rfl
    exact ⟨_, rfl, rfl⟩
  | add | sub | mul | div | cmp | test =>
    obtain ⟨x, rfl⟩ := ha rfl
    obtain ⟨y, rfl⟩ := hb rfl
    exact ⟨_, rfl, rfl⟩

/-- R82, R182: without one of them, it is refused. -/
theorem decode_command_of_not_wellFormed {c : AluCommand} (h : c.wellFormed = false) :
    decode (.command c) = .error (.missingOperand c.op) := by
  obtain ⟨op, a, b⟩ := c
  rcases not_wellFormed_iff.1 h with ⟨huses, rfl⟩ | ⟨huses, rfl⟩
  · cases op with
    | incB | decB | skipB => cases huses
    | _ => rfl
  · cases op with
    | incA | decA | skipA => cases huses
    | incB | decB | skipB => rfl
    | _ => cases a <;> rfl

/-- R82: "An operand the operation does not use is ignored". -/
theorem decode_normalCode (c : Code) : decode (normalCode c) = decode c := by
  cases c with
  | word w => rfl
  | command c =>
    obtain ⟨op, a, b⟩ := c
    cases op with
    | incA | decA | skipA => cases a <;> rfl
    | incB | decB | skipB => cases b <;> rfl
    | _ => rfl

/-- What decodes is, in its normal form, the encoding of its instruction. -/
theorem normalCode_eq_encode_of_decode {c : Code} {i : Instr} (h : decode c = .ok i) : normalCode c = encode i := by
  cases c with
  | word w =>
    cases h
    exact (encode_decodeWord w).symm
  | command c =>
    cases hwf : c.wellFormed with
    | false => cases (decode_command_of_not_wellFormed hwf).symm.trans h
    | true =>
      obtain ⟨j, hj, henc⟩ := decode_command_of_wellFormed hwf
      cases hj.symm.trans h
      exact henc.symm

/-- The codes of an instruction are those whose normal form is its encoding. -/
theorem decode_eq_ok {c : Code} {i : Instr} : decode c = .ok i ↔ normalCode c = encode i := by
  refine ⟨normalCode_eq_encode_of_decode, fun h => ?_⟩
  rw [← decode_normalCode, h, decode_encode]

/-! ### The objects of the artifact (R60 to R66, R200) -/

/-- R61: no two opcodes share a tag. -/
theorem opcodeOfTag_opcodeTag (op : Opcode) : opcodeOfTag (opcodeTag op) = some op := by
  cases op <;> rfl

/-- R61: a tag names the opcode that is spelled so, and no other. -/
theorem opcodeOfTag_eq_some {tag : String} {op : Opcode} : opcodeOfTag tag = some op ↔ opcodeTag op = tag := by
  constructor
  · intro h
    have hspelled := List.find?_some h
    exact beq_iff_eq.1 hspelled
  · rintro rfl
    exact opcodeOfTag_opcodeTag op

/-- R40, R200, D22: an accepted index is that of a cell of the array. -/
theorem index_eq_cell_iff {ms k : Nat} {a : ArtifactWord} :
    a.indexInRange ms = true ∧ a.index.toNat = k ↔ k < ms ∧ a.index = k := by
  rw [ArtifactWord.indexInRange, decide_eq_true_eq]
  omega

/-- R200: the objects that are accepted, and what each places; a value is an integer, or absent for 0 (D6), and never a
string (R62). -/
theorem decodeArtifactWord_eq_ok {ms k : Nat} {a : ArtifactWord} {w : MachineWord} :
    decodeArtifactWord ms a = .ok (k, w) ↔
      (k < ms ∧ a.index = k) ∧ opcodeTag w.opcode = a.opcode ∧
        (a.value = .int w.value ∨ w.value = 0 ∧ a.value = .absent) ∧ a.isIndirect = w.isIndirect := by
  obtain ⟨op, v, d⟩ := w
  rw [← index_eq_cell_iff, ← opcodeOfTag_eq_some, decodeArtifactWord]
  cases opcodeOfTag a.opcode with
  | none => simp
  | some op' =>
    cases a.value with
    | string text => simp
    | int v' => by_cases hr : a.indexInRange ms = true <;> simp [hr]
    | absent => by_cases hr : a.indexInRange ms = true <;> simp [hr, eq_comm (a := (0 : Int))]

/-- R66: an object that is placed is written out by what it places, its value there or left absent for 0. -/
theorem decodeArtifactWord_eq_ok_iff_encode {ms k : Nat} {a : ArtifactWord} {w : MachineWord} :
    decodeArtifactWord ms a = .ok (k, w) ↔
      k < ms ∧
        (a = encodeArtifactWord k w ∨ (w.value = 0 ∧ a = { encodeArtifactWord k w with value := .absent })) := by
  rw [decodeArtifactWord_eq_ok]
  constructor
  · obtain ⟨index, tag, value, indirect⟩ := a
    rintro ⟨⟨hk, rfl⟩, rfl, rfl | ⟨hzero, rfl⟩, rfl⟩
    · exact ⟨hk, .inl rfl⟩
    · exact ⟨hk, .inr ⟨hzero, rfl⟩⟩
  · rintro ⟨hk, rfl | ⟨hzero, rfl⟩⟩
    · exact ⟨⟨hk, rfl⟩, rfl, .inl rfl, rfl⟩
    · exact ⟨⟨hk, rfl⟩, rfl, .inr ⟨hzero, rfl⟩, rfl⟩

/-- R66, D6: the word that an accepted object places, field by field from the object. -/
theorem decodeArtifactWord_word {ms k : Nat} {a : ArtifactWord} {w : MachineWord}
    (h : decodeArtifactWord ms a = .ok (k, w)) :
    ∃ op, opcodeTag op = a.opcode ∧ (∀ v, a.value = .int v → w = ⟨op, v, a.isIndirect⟩) ∧
      (a.value = .absent → w = ⟨op, 0, a.isIndirect⟩) := by
  obtain ⟨op, value, indirect⟩ := w
  obtain ⟨-, htag, hint | ⟨rfl, habsent⟩, hindirect⟩ := decodeArtifactWord_eq_ok.1 h
  · exact ⟨op, htag, by simp [hint, hindirect]⟩
  · exact ⟨op, htag, by simp [habsent, hindirect]⟩

/-! ### Placing a program (R200) -/

/-- R200: the first object is placed, then the others. -/
theorem placeProgram_cons_eq_ok {ms : Nat} {a : ArtifactWord} {rest : List ArtifactWord} {m m' : Memory} :
    placeProgram ms (a :: rest) m = .ok m' ↔
      ∃ i w, decodeArtifactWord ms a = .ok (i, w) ∧ placeProgram ms rest (setCell i w m) = .ok m' := by
  rw [placeProgram]
  cases decodeArtifactWord ms a with
  | error e => simp
  | ok c =>
    obtain ⟨i, w⟩ := c
    simp

/-- A program is placed part by part. -/
theorem placeProgram_append_eq_ok {ms : Nat} {p q : List ArtifactWord} {m m' : Memory} :
    placeProgram ms (p ++ q) m = .ok m' ↔
      ∃ m₁, placeProgram ms p m = .ok m₁ ∧ placeProgram ms q m₁ = .ok m' := by
  induction p generalizing m with
  | nil => simp [placeProgram]
  | cons a p ih =>
    simp only [List.cons_append, placeProgram_cons_eq_ok, ih]
    constructor
    · rintro ⟨i, w, hdec, m₁, hp, hq⟩
      exact ⟨m₁, ⟨i, w, hdec, hp⟩, hq⟩
    · rintro ⟨m₁, ⟨i, w, hdec, hp⟩, hq⟩
      exact ⟨i, w, hdec, m₁, hp, hq⟩

/-- A cell that no object names is left as it was. -/
theorem readCell_placeProgram_of_not_named {ms i : Nat} {p : List ArtifactWord} {m m' : Memory}
    (h : placeProgram ms p m = .ok m') (hi : ∀ a ∈ p, a.index ≠ (i : Int)) : readCell m' i = readCell m i := by
  induction p generalizing m with
  | nil => cases h; rfl
  | cons a p ih =>
    obtain ⟨k, w, hdec, hrest⟩ := placeProgram_cons_eq_ok.1 h
    obtain ⟨⟨-, hk⟩, -⟩ := decodeArtifactWord_eq_ok.1 hdec
    have hne : i ≠ k := fun hik => hi a List.mem_cons_self (by rw [hk, hik])
    rw [ih hrest fun b hb => hi b (List.mem_cons_of_mem a hb), readCell_setCell_other hne]

/-- "Later entries for the same index overwrite", and an earlier one stands where none does. -/
theorem readCell_placeProgram_of_last {ms : Nat} {before after : List ArtifactWord} {a : ArtifactWord} {m m' : Memory}
    (h : placeProgram ms (before ++ a :: after) m = .ok m') (hlast : ∀ b ∈ after, b.index ≠ a.index) :
    decodeArtifactWord ms a = .ok (a.index.toNat, readCell m' a.index.toNat) := by
  obtain ⟨m₁, -, hm₁⟩ := placeProgram_append_eq_ok.1 h
  obtain ⟨k, w, hdec, hafter⟩ := placeProgram_cons_eq_ok.1 hm₁
  obtain ⟨⟨-, hk⟩, -⟩ := decodeArtifactWord_eq_ok.1 hdec
  have hcell : readCell m' k = w := by
    rw [readCell_placeProgram_of_not_named hafter fun b hb => hk ▸ hlast b hb, readCell_setCell_same]
  rw [hk, Int.toNat_natCast, hcell, hdec]

/-! ### The obligations -/

/-- Settles O1: the codes of an instruction are those with its encoding as normal form, and the objects that place a
word are the one R66 writes for it and, for the value 0, the one without a value. -/
theorem decodeEncodeRoundTrip : Obligations.DecodeEncodeRoundTrip :=
  ⟨decode_encode, fun _ _ => decode_eq_ok,
    fun _ _ _ hk => decodeArtifactWord_eq_ok_iff_encode.2 ⟨hk, .inl rfl⟩,
    fun _ _ _ _ => decodeArtifactWord_eq_ok_iff_encode.1⟩

/-- Settles O2: a word's tag always names an instruction, and a command's operands decide. -/
theorem decodeAcceptsExactlyWellFormed : Obligations.DecodeAcceptsExactlyWellFormed :=
  ⟨fun w => ⟨decodeWord w, rfl, encode_decodeWord w⟩,
    fun _ => ⟨decode_command_of_wellFormed, decode_command_of_not_wellFormed⟩⟩

/-- Settles O3: the words are encodings, and the two numbers are looked up in the list of 20 opcodes. -/
theorem sampleWordsDecode : Obligations.SampleWordsDecode :=
  ⟨decode_encode (.nop 77 false), decode_encode (.push 0 false), decode_encode (.load 4 true),
    decode_encode (.input 55 false), decode_encode (.jz (-1) false), decode_encode (.aluDiv (-7) 2), rfl, rfl⟩

/-- Settles O5: the cells are filled in the artifact's order into an empty memory, so the last word of an index is what
its cell holds, and a cell that no word names reads as the empty memory does. -/
theorem loadPlacesLastWord : Obligations.LoadPlacesLastWord := by
  intro cfg input program s h
  obtain ⟨-, m, hm, rfl⟩ := StateFields.load_eq_next h
  refine ⟨rfl, ?lastWord, ?blank⟩
  case lastWord =>
    rintro before after a rfl hlast
    exact decodeArtifactWord_word (readCell_placeProgram_of_last hm hlast)
  case blank =>
    intro i hi
    rw [readCell_placeProgram_of_not_named hm hi]
    rfl

end Sys2Proof.Proofs.Encoding

/-! PROOF. The ALU: what each of its operations leaves, the operands that a command to it needs, and the ways a step can
end, among which no missing operand is (spec/40_alu.md R80 to R99; R109, R110, R126, R182). -/

namespace Sys2Proof.Proofs.Alu

open Sys2Proof Sys2Proof.Machine

/-! ### One computation (R80, R82) -/

/-- R82: a computation has a value exactly where the command has every operand that its operation uses. -/
theorem aluValue_isSome_eq_wellFormed (c : AluCommand) : (aluValue c.op c.a c.b).isSome = c.wellFormed :=
  aluValue_isSome c.op c.a c.b

/-- R80: a computation that is done has written the value of its operation, and nothing but a computation's fields. -/
theorem aluCompute_eq_done {op : AluOp} {a b : Option Int} {s t : State} :
    aluCompute op a b s = .done t ↔ ∃ v, aluValue op a b = some v ∧ t = aluWrite op a b v s := by
  unfold aluCompute
  cases aluValue op a b <;> simp [eq_comm]

theorem aluCompute_of_value {op : AluOp} {a b : Option Int} {v : Int} (h : aluValue op a b = some v) (s : State) :
    aluCompute op a b s = .done (aluWrite op a b v s) :=
  aluCompute_eq_done.2 ⟨v, h, rfl⟩

/-- R82: without a value there is only the ConfigFault, and nothing is written. -/
theorem aluCompute_of_missing {op : AluOp} {a b : Option Int} (h : aluValue op a b = none) (s : State) :
    aluCompute op a b s = .raised (.fatal (.configFault (.missingOperand op))) s := by
  simp only [aluCompute, h]

/-- The ALU rows of the opcode table: exec of an instruction encoded as a command runs that command. -/
theorem exec_of_encode_command {i : Instr} {c : AluCommand} (h : encode i = .command c) (s : State) :
    exec i s = runAluCommand c.op c.a c.b s := by
  cases i <;> cases h <;> rfl

/-- R82: neither the value nor the diagnostic depends on an operand that the operation does not use. -/
theorem aluValue_ignores_unused (op : AluOp) (a b : Option Int) :
    aluValue op (if op.usesA then a else none) (if op.usesB then b else none) = aluValue op a b := by
  cases op <;> rfl

theorem aluDiagnostics_ignores_unused (op : AluOp) (b : Option Int) (d : List Diagnostic) :
    aluDiagnostics op (if op.usesB then b else none) d = aluDiagnostics op b d := by
  cases op <;> rfl

theorem aluWrite_ignores_unused (op : AluOp) (a b : Option Int) (v : Int) (s : State) :
    let a' := if op.usesA then a else none
    let b' := if op.usesB then b else none
    aluWrite op a' b' v s = { aluWrite op a b v s with aluInputs := ⟨a', b', some op⟩ } := by
  simp only [aluWrite, aluDiagnostics_ignores_unused]

/-- R80, R82: a command decoded and run writes the value of its operation; what is recorded of the inputs is left open,
since a decoded command no longer has the operand that it ignores. -/
theorem exec_of_decode_command {c : AluCommand} {i : Instr} {v : Int} (hd : decode (.command c) = .ok i)
    (hv : aluValue c.op c.a c.b = some v) (s : State) :
    ∃ l, exec i s = .next { aluWrite c.op c.a c.b v s with aluInputs := l } := by
  have henc := (Encoding.normalCode_eq_encode_of_decode hd).symm
  rw [← aluValue_ignores_unused] at hv
  rw [exec_of_encode_command henc, runAluCommand_of_value s hv, aluWrite_ignores_unused]
  exact ⟨_, rfl⟩

/-- R80: an operation that stores its value, with no diagnostic, changes ALU.result and the flags. -/
theorem exec_of_storing {c : AluCommand} {i : Instr} {v : Int} {s : State} (hd : decode (.command c) = .ok i)
    (hv : aluValue c.op c.a c.b = some v) (hstores : aluStores c.op = true)
    (hdiag : aluDiagnostics c.op c.b s.diag = s.diag) :
    ∃ l, exec i s = .next { s with alu := ⟨v, flagsOf v⟩, aluInputs := l } := by
  obtain ⟨l, h⟩ := exec_of_decode_command hd hv s
  exact ⟨l, by rw [h, aluWrite, hstores, hdiag]; rfl⟩

/-- R80, R92, R93: an operation that only compares changes the flags. -/
theorem exec_of_comparing {c : AluCommand} {i : Instr} {v : Int} {s : State} (hd : decode (.command c) = .ok i)
    (hv : aluValue c.op c.a c.b = some v) (hstores : aluStores c.op = false)
    (hdiag : aluDiagnostics c.op c.b s.diag = s.diag) :
    ∃ l, exec i s = .next { s with alu := ⟨s.alu.result, flagsOf v⟩, aluInputs := l } := by
  obtain ⟨l, h⟩ := exec_of_decode_command hd hv s
  exact ⟨l, by rw [h, aluWrite, hstores, hdiag]; rfl⟩

/-! ### Division (R91) -/

theorem aluDiagnostics_div_of_ne {b : Int} (hb : b ≠ 0) (d : List Diagnostic) :
    aluDiagnostics .div (some b) d = d := by
  simp [aluDiagnostics, hb]

/-- R91: by a divisor that is not 0, DIV is one more operation that stores its value. -/
theorem exec_aluDiv_of_ne (a : Int) {b : Int} (hb : b ≠ 0) (s : State) :
    ∃ l, exec (.aluDiv a b) s =
      .next { s with alu := ⟨floorDiv a b, flagsOf (floorDiv a b)⟩, aluInputs := l } := by
  have hv : aluValue .div (some a) (some b) = some (floorDiv a b) := by simp [aluValue, hb]
  exact exec_of_storing (c := ⟨.div, some a, some b⟩) rfl hv rfl (aluDiagnostics_div_of_ne hb s.diag)

/-- R91, R185: by 0 it stores 0 and records the diagnostic. -/
theorem exec_aluDiv_zero (a : Int) (s : State) :
    ∃ l, exec (.aluDiv a 0) s =
      .next { s with alu := ⟨0, ⟨false, true⟩⟩, aluInputs := l, diag := s.diag ++ [.divByZero] } :=
  exec_of_decode_command (c := ⟨.div, some a, some 0⟩) (v := 0) rfl rfl s

/-! ### The flags of a comparison (R92, R93) -/

/-- R92: the flags of a difference are those of the order. -/
theorem flagsOf_sub (a b : Int) : flagsOf (a - b) = ⟨decide (a < b), decide (a = b)⟩ := by
  simp only [flagsOf, sub_neg, sub_eq_zero]

/-- R93, D3: the AND is an `ofNat` unless both operands are `negSucc`, as the sign bit is one of the bits it takes. -/
theorem bitAnd_neg_iff (a b : Int) : bitAnd a b < 0 ↔ a < 0 ∧ b < 0 := by
  cases a <;> cases b <;> simp [bitAnd, Int.negSucc_lt_zero] <;> omega

theorem flagsOf_bitAnd (a b : Int) :
    flagsOf (bitAnd a b) = ⟨decide (a < 0 ∧ b < 0), decide (bitAnd a b = 0)⟩ := by
  simp only [flagsOf, bitAnd_neg_iff]

/-! ### The operations -/

/-- Settles O9: each operation's value stands in its row, and none of the nine has a diagnostic. -/
theorem aluStoringOperations : Obligations.AluStoringOperations := fun a b _ =>
  ⟨exec_of_storing (c := ⟨.incA, some a, none⟩) rfl rfl rfl rfl,
    exec_of_storing (c := ⟨.decA, some a, none⟩) rfl rfl rfl rfl,
    exec_of_storing (c := ⟨.incB, none, some b⟩) rfl rfl rfl rfl,
    exec_of_storing (c := ⟨.decB, none, some b⟩) rfl rfl rfl rfl,
    exec_of_storing (c := ⟨.add, some a, some b⟩) rfl rfl rfl rfl,
    exec_of_storing (c := ⟨.sub, some a, some b⟩) rfl rfl rfl rfl,
    exec_of_storing (c := ⟨.mul, some a, some b⟩) rfl rfl rfl rfl,
    exec_of_storing (c := ⟨.skipA, some a, none⟩) rfl rfl rfl rfl,
    exec_of_storing (c := ⟨.skipB, none, some b⟩) rfl rfl rfl rfl⟩

/-- Settles O10: the bounds are those of the floor quotient. -/
theorem aluDivision : Obligations.AluDivision := by
  intro a b s
  refine ⟨fun hb => ?_, exec_aluDiv_zero a s⟩
  obtain ⟨l, h⟩ := exec_aluDiv_of_ne a hb s
  exact ⟨floorDiv a b, l, h, Scope.floorDiv_bounds_of_pos a, Scope.floorDiv_bounds_of_neg a⟩

/-- Settles O11: CMP's flags are those of `a - b`, and TEST's those of the AND, which is negative where both are. -/
theorem aluComparingOperations : Obligations.AluComparingOperations := by
  intro a b s
  rw [← flagsOf_sub, ← flagsOf_bitAnd]
  exact ⟨exec_of_comparing (c := ⟨.cmp, some a, some b⟩) rfl rfl rfl rfl,
    exec_of_comparing (c := ⟨.test, some a, some b⟩) rfl rfl rfl rfl⟩

/-- Settles O13: the flags are always those of one value, and the other five follow from the operations' results. -/
theorem aluTestableProperties : Obligations.AluTestableProperties := by
  refine ⟨?exclusive, ?cmpAsSub, ?skips, ?quotient, ?divByZero, ?incThenDec⟩
  case exclusive =>
    intro op a b s t h
    obtain ⟨v, -, rfl⟩ := aluCompute_eq_done.1 h
    exact StateFields.flagsOf_exclusive v
  case cmpAsSub =>
    intro a b s
    obtain ⟨⟨_, hcmp⟩, -⟩ := aluComparingOperations a b s
    obtain ⟨-, -, -, -, -, ⟨_, hsub⟩, -⟩ := aluStoringOperations a b s
    exact ⟨_, _, hcmp, hsub, (flagsOf_sub a b).symm, rfl, rfl⟩
  case skips =>
    intro a s
    obtain ⟨-, -, -, -, -, -, -, ⟨_, hskipA⟩, ⟨_, hskipB⟩⟩ := aluStoringOperations a a s
    exact ⟨_, _, hskipA, hskipB, rfl⟩
  case quotient =>
    intro a b s hb
    obtain ⟨l, h⟩ := exec_aluDiv_of_ne a hb s
    exact ⟨_, h, Scope.floorDiv_bounds_of_pos a, Scope.floorDiv_bounds_of_neg a⟩
  case divByZero =>
    intro a s
    obtain ⟨l, h⟩ := exec_aluDiv_zero a s
    exact ⟨_, h, rfl⟩
  case incThenDec =>
    intro a s
    obtain ⟨⟨l, hinc⟩, -⟩ := aluStoringOperations a a s
    obtain ⟨-, ⟨_, hdec⟩, -⟩ :=
      aluStoringOperations (a + 1) a { s with alu := ⟨a + 1, flagsOf (a + 1)⟩, aluInputs := l }
    exact ⟨_, _, hinc, hdec, add_sub_cancel_right a 1⟩

/-! ### execute_alu_op (R82, R109, R110) -/

/-- The command that execute_alu_op gives the ALU (R109). -/
def selectedCommand (op : AluOp) (left : Option LeftSelector) (right : Option RightSelector) (s : State) : AluCommand :=
  ⟨op, left.map (leftOperand s), right.map (rightOperand s)⟩

/-- The signal is the computation of that command. -/
theorem runSignal_executeAluOp (op : AluOp) (left : Option LeftSelector) (right : Option RightSelector) (s : State) :
    runSignal (.executeAluOp op left right) s =
      aluCompute op (selectedCommand op left right s).a (selectedCommand op left right s).b s := rfl

/-- R82: a selected register always has a value, so the command lacks an operand only where none is selected. -/
theorem selectedCommand_wellFormed_iff (op : AluOp) (left : Option LeftSelector) (right : Option RightSelector)
    (s : State) :
    (selectedCommand op left right s).wellFormed = true ↔
      (op.usesA = true → left.isSome = true) ∧ (op.usesB = true → right.isSome = true) := by
  simp [selectedCommand, AluCommand.wellFormed, imp_iff_not_or]

/-- Settles O14: the command selected decodes where it is well formed, and then its instruction and the signal write the
same value; where it is not, the ALU has no value to write. -/
theorem missingAluOperandIsConfigFault : Obligations.MissingAluOperandIsConfigFault := by
  refine ⟨fun op left right s => ?_, fun s => ⟨rfl, ?fromPs, rfl, rfl, rfl⟩⟩
  · have hsome := aluValue_isSome_eq_wellFormed (selectedCommand op left right s)
    rw [runSignal_executeAluOp]
    simp only [← selectedCommand_wellFormed_iff op left right s]
    split
    · next hwf =>
      obtain ⟨i, hi, -⟩ := Encoding.decode_command_of_wellFormed hwf
      obtain ⟨v, hv⟩ := Option.isSome_iff_exists.1 (hsome.trans hwf)
      obtain ⟨_, hexec⟩ := exec_of_decode_command hi hv s
      exact ⟨i, _, _, hi, hexec, aluCompute_of_value hv s⟩
    · next hwf =>
      have hnone := Option.not_isSome_iff_eq_none.1 (hsome ▸ hwf)
      exact aluCompute_of_missing hnone s
  case fromPs =>
    simp only [leftOperand, packFlags, boolValue, mul_ite, mul_one, mul_zero]

/-! ### The ways a step can end (R126, R181, R182) -/

/-- R126, R181: how an instruction of opcode `op` whose execute phase starts in `u` can leave the run: going on and
counted, halted by the opcode, out of input, or faulted on an address outside memory. -/
inductive RunAfter (op : Opcode) (u t : State) : Prop where
  | completed (status : t.status = u.status) (counted : t.instr = u.instr + 1)
  | halted (opcode : op = .halt) (status : t.status = .halted .haltInstr)
  | starved (opcode : op = .input) (status : t.status = .halted .inputExhausted) (empty : u.inBuf = [])
  | faulted (status : t.status = .faulted (.addressFault t.addr)) (uncounted : t.instr = u.instr)
      (outside : ¬(0 ≤ t.addr ∧ t.addr < u.cfg.memorySize))

/-- R43: an address that is not writable is no cell's. -/
theorem outside_of_writeIndex_none {ms : Nat} {a : Int} (h : writeIndex ms a = none) : ¬(0 ≤ a ∧ a < ms) := by
  have := writeIndex_eq_none.1 h
  omega

/-- No execute phase changes IR (R140 to R175). -/
theorem executeEnd_ir {u t : State} {op : Opcode} (h : ExecuteEnd u op t) : t.ir = u.ir := by
  cases h <;> rfl

/-- R97: an event of an execute phase is a halt or an AddressFault, and the fault is on the address in Addr. -/
theorem executeEnd_runAfter {u t : State} {op : Opcode} (h : ExecuteEnd u op t) : RunAfter op u t := by
  cases h with
  | halt => exact .halted rfl rfl
  | inputExhausted h => exact .starved rfl rfl h
  | pushFault h | storeFault h => exact .faulted rfl rfl (outside_of_writeIndex_none h)
  | popFault h | readFault _ _ h => exact .faulted rfl rfl (memRead_eq_none.1 h)
  | _ => exact .completed rfl rfl

/-- The same of the whole step after the fetch of `w`, where indirect resolution may fault as well (R123). -/
theorem step_runAfter {s t : State} {w : MachineWord} (hl : s.instr < s.cfg.limit) (hw : memRead s s.pc = some w)
    (h : step s = .next t) : t.ir = w ∧ RunAfter w.opcode s t := by
  rcases step_executed hl hw h with ⟨hp, rfl⟩ | ⟨p, -, hend⟩
  · exact ⟨rfl, .faulted rfl rfl (memRead_eq_none.1 (operandOf_eq_none.1 hp).2)⟩
  · refine ⟨(executeEnd_ir hend).trans (executeEntry_ir w p _), ?_⟩
    cases executeEnd_runAfter hend with
    | completed status counted =>
      rw [executeEntry_status] at status
      rw [executeEntry_instr] at counted
      exact .completed status counted
    | halted opcode status => exact .halted opcode status
    | starved opcode status empty =>
      rw [executeEntry_inBuf] at empty
      exact .starved opcode status empty
    | faulted status uncounted outside =>
      rw [executeEntry_instr] at uncounted
      rw [executeEntry_cfg] at outside
      exact .faulted status uncounted outside

/-- Settles O40: a step stops at the limit, faults in its fetch, or runs an instruction, which ends as its execute phase
does. -/
theorem waysAStepCanEnd : Obligations.WaysAStepCanEnd := by
  intro s t h
  obtain ⟨hrun, ⟨hl, rfl⟩ | ⟨hl, w, hw, -⟩ | ⟨-, hn, rfl⟩⟩ := step_next_cases h
  · exact .inr (.inl ⟨rfl, hl⟩)
  · obtain ⟨rfl, hend⟩ := step_runAfter hl hw h
    cases hend with
    | completed status counted => exact .inl ⟨status.trans hrun, counted⟩
    | halted opcode status => exact .inr (.inr (.inl ⟨status, opcode⟩))
    | starved opcode status empty => exact .inr (.inr (.inr (.inl ⟨status, opcode, empty⟩)))
    | faulted status uncounted outside => exact .inr (.inr (.inr (.inr ⟨_, status, rfl, uncounted, outside⟩)))
  · exact .inr (.inr (.inr (.inr ⟨s.pc, rfl, rfl, rfl, memRead_eq_none.1 hn⟩)))

end Sys2Proof.Proofs.Alu

/-! PROOF. The datapath's signals: what each that copies a register leaves, the packing of PS for the ALU, the signal that
raises, and the instruction that reads the input buffer (spec/41_datapath_signals.md R100 to R111; R160, R183). -/

namespace Sys2Proof.Proofs.DatapathSignals

open Sys2Proof Sys2Proof.Machine

/-! ### The signals (R100 to R111) -/

/-- Settles O18: the three reads and the write of memory, the input and the ALU are all that can raise, and each does so
before it has changed anything. -/
theorem raisingSignalChangesNothing : Obligations.RaisingSignalChangesNothing :=
  fun _ _ _ _ h => StateFields.runSignal_raised h

theorem output_of_port {s : State} (h : s.dr = outputPort) : output s = { s with outBuf := s.outBuf ++ [s.ac] } :=
  if_pos h

/-- R192: no other port exists, and output to one is silent. -/
theorem output_of_other_port {s : State} (h : s.dr ≠ outputPort) : output s = s :=
  if_neg h

/-- Settles O15: a latch copies one register; only the input buffer and the port decide between two outcomes. -/
theorem latchAndOutputSignals : Obligations.LatchAndOutputSignals := fun _ =>
  ⟨rfl, rfl, rfl, rfl, latchAc_of_empty, fun _ _ => latchAc_of_input, rfl, rfl,
    fun hport => congrArg SignalResult.done (output_of_port hport),
    fun hport => congrArg SignalResult.done (output_of_other_port hport)⟩

/-- R109, R110: SKIP_A stores the left operand selected, and the flags of it. -/
theorem runSignal_skipA (left : LeftSelector) (s : State) :
    runSignal (.executeAluOp .skipA (some left) none) s =
      .done { s with
        alu := ⟨leftOperand s left, flagsOf (leftOperand s left)⟩
        aluInputs := ⟨some (leftOperand s left), none, some .skipA⟩ } :=
  Alu.aluCompute_of_value (op := .skipA) (a := some (leftOperand s left)) (b := none) rfl s

/-- Settles O19: SKIP_A stores what FROM_PS selects, and that is the packed flags (O14). -/
theorem fromPsPacksFlags : Obligations.FromPsPacksFlags := by
  intro s
  obtain ⟨-, hselected⟩ := Alu.missingAluOperandIsConfigFault
  obtain ⟨-, hpacked, -⟩ := hselected s
  rw [← hpacked]
  exact ⟨_, runSignal_skipA .fromPs s⟩

/-! ### in (R106, R123, R160) -/

/-- R120, R123: an instruction whose operand resolves runs the microprogram of its opcode and ends as that does. -/
theorem exec_of_operand {w : MachineWord} {s : State} {p : Int} (h : operandOf s w.value w.isIndirect = some p) :
    exec (decodeWord w) s =
      .next (settle (runMicroprogram (executeMicro w.opcode (executeEntry w p s)) (executeEntry w p s))) := by
  rw [exec_decodeWord, runInstr_of_operand _ h]

/-- R122, R123: the state in which execute starts, written as one update; beside the operand itself, indirect resolution
shows in Addr, in the ALU and in its two ticks. -/
theorem exists_executeEntry_eq {w : MachineWord} {s : State} {p : Int}
    (h : operandOf s w.value w.isIndirect = some p) :
    ∃ l, executeEntry w p s = { s with
      ir := w, dr := p, addr := if w.isIndirect then w.value else s.addr
      alu := if w.isIndirect then ⟨w.value, flagsOf w.value⟩ else s.alu, aluInputs := l
      tick := s.tick + indirectTicks w.isIndirect } := by
  rcases operandOf_eq_some.1 h with ⟨hdirect, rfl⟩ | ⟨hindirect, u, -, rfl⟩
  · exact ⟨s.aluInputs, by simp [executeEntry, enter, indirectTicks, hdirect]⟩
  · exact ⟨⟨none, some w.value, some .skipB⟩, by simp [executeEntry, indirectTicks, hindirect]⟩

/-- R160: with input, in takes the head of the buffer and completes. -/
theorem settle_inX1_of_input {u : State} {c : Int} {rest : List Int} (h : u.inBuf = c :: rest) :
    settle (runMicroprogram [inX1] u) = retire { u with ac := c, inBuf := rest, tick := u.tick + 1 } := by
  rw [runMicroprogram_cons, inX1_of_input h, bind_done, runMicroprogram_nil, settle_done]

/-- R106, R160: without input, in halts the machine, before its tick. -/
theorem settle_inX1_of_empty {u : State} (h : u.inBuf = []) :
    settle (runMicroprogram [inX1] u) = takeEvent (.halt .inputExhausted) u := by
  rw [runMicroprogram_cons, inX1_of_empty h, bind_raised, settle_raised]

/-- Settles O32: in's one group runs from the state in which execute starts, and then come the flag latch and the count,
or the halt. The group drives no ALU operation, so the flags latched are those of indirect resolution or of an earlier
computation. -/
theorem inResult : Obligations.InResult := by
  intro v ind p s hp
  have hrun := exec_of_operand (w := ⟨.input, v, ind⟩) hp
  obtain ⟨l, hentry⟩ := exists_executeEntry_eq (w := ⟨.input, v, ind⟩) hp
  rw [hentry] at hrun
  constructor
  · intro c rest hbuf
    refine ⟨l, hrun.trans ?_⟩
    rw [executeMicro, settle_inX1_of_input (by exact hbuf)]
    simp only [retire, latchPsFlags, apply_ite AluOutputs.flags]
  · intro hbuf
    refine ⟨l, hrun.trans ?_⟩
    rw [executeMicro, settle_inX1_of_empty (by exact hbuf), takeEvent]

end Sys2Proof.Proofs.DatapathSignals

/-! PROOF. The control unit: the ticks that an instruction is charged, the flags it leaves, the step as fetch and
execute, the control unit as a machine of one state per tick, and two instructions in sequence (spec/42_control_unit.md
R120 to R128; R145, R157, R170 to R173, R197, R206, R211). -/

namespace Sys2Proof.Proofs.ControlUnit

open Sys2Proof Sys2Proof.Machine Sys2Proof.Proofs.StateFields

/-! ### The ticks of an instruction (R124, R127, R211) -/

/-- R127: how an instruction of opcode `op` that has been charged `c` ticks since the state `s`, when its execute phase
starts, can end in `t`: completed and charged for execute as well, halted and charged no more, or faulted. -/
inductive ChargedEnd (op : Opcode) (c : Nat) (s t : State) : Prop where
  | completed (status : t.status = s.status) (counted : t.instr = s.instr + 1) (not_halt : op ≠ .halt)
      (ticks : t.tick = s.tick + c + executeTicks op)
  | halted (cause : HaltCause) (status : t.status = .halted cause) (counted : t.instr ≤ s.instr + 1)
      (ticks : t.tick = s.tick + c)
  | faulted (f : FatalFault) (status : t.status = .faulted f) (uncounted : t.instr = s.instr)
      (ticks : s.tick ≤ t.tick)

/-- R183: the halting instruction is counted or not, by COUNT_HALTING. -/
theorem takeEvent_halt_instr_le (c : HaltCause) (s : State) : (takeEvent (.halt c) s).instr ≤ s.instr + 1 := by
  rw [takeEvent_halt_instr]
  split
  · exact le_rfl
  · exact Nat.le_succ _

/-- R170: every branch has one execute tick. -/
theorem executeTicks_of_branch {op : Opcode} (h : op ∈ [.jg, .jz, .jnz, .jmp]) : executeTicks op = 1 := by
  revert h
  cases op <;> decide

theorem mem_branches_of_isConditional {op : Opcode} (h : isConditional op = true) : op ∈ [.jg, .jz, .jnz, .jmp] := by
  revert h
  cases op <;> decide

/-- A branch completes in its one tick. -/
theorem chargedEnd_of_branch {op : Opcode} {u t : State} (hop : op ∈ [.jg, .jz, .jnz, .jmp])
    (hstatus : t.status = u.status) (hinstr : t.instr = u.instr + 1) (htick : t.tick = u.tick + 1) :
    ChargedEnd op 0 u t :=
  .completed hstatus hinstr (by rintro rfl; exact absurd hop (by decide))
    (by rw [executeTicks_of_branch hop, htick, Nat.add_zero])

/-- R124: each execute phase is charged its own ticks if it completes and none if it halts. -/
theorem executeEnd_charged {u t : State} {op : Opcode} (h : ExecuteEnd u op t) : ChargedEnd op 0 u t := by
  cases h with
  | halt => exact .halted _ rfl (takeEvent_halt_instr_le _ u) rfl
  | inputExhausted _ => exact .halted _ rfl (takeEvent_halt_instr_le _ u) rfl
  | pushFault | popFault | storeFault | readFault => exact .faulted _ rfl rfl (Nat.le_add_right _ _)
  | taken _ h => exact chargedEnd_of_branch (mem_branches_of_branchesIn h) rfl rfl rfl
  | notTaken _ _ hop | notTakenIdle _ _ hop =>
    exact chargedEnd_of_branch (mem_branches_of_isConditional hop) rfl rfl rfl
  | _ => exact .completed rfl rfl (by decide) rfl

/-- R127: a step is charged 2 ticks for its fetch and 2 for indirect resolution before its execute phase. -/
theorem step_charged {s t : State} {w : MachineWord} (hl : s.instr < s.cfg.limit) (hw : memRead s s.pc = some w)
    (h : step s = .next t) : ChargedEnd w.opcode (2 + indirectTicks w.isIndirect) s t := by
  rcases step_executed hl hw h with ⟨-, rfl⟩ | ⟨p, -, hend⟩
  · exact .faulted _ rfl rfl (Nat.le_add_right _ _)
  · have entryTick : (executeEntry w p (fetched w s)).tick = s.tick + (2 + indirectTicks w.isIndirect) :=
      (executeEntry_tick w p _).trans (Nat.add_assoc _ _ _)
    cases executeEnd_charged hend with
    | completed status counted not_halt ticks =>
      rw [executeEntry_status] at status
      rw [executeEntry_instr] at counted
      rw [entryTick] at ticks
      exact .completed status counted not_halt ticks
    | halted cause status counted ticks =>
      rw [executeEntry_instr] at counted
      rw [entryTick] at ticks
      exact .halted cause status counted ticks
    | faulted f status uncounted ticks =>
      rw [executeEntry_instr] at uncounted
      rw [entryTick] at ticks
      exact .faulted f status uncounted ((Nat.le_add_right _ _).trans ticks)

/-- R124: an execute phase that completes has one to three ticks. -/
theorem executeTicks_range {op : Opcode} (h : op ≠ .halt) : 1 ≤ executeTicks op ∧ executeTicks op ≤ 3 := by
  revert h
  cases op <;> decide

theorem indirectTicks_le (ind : Bool) : indirectTicks ind ≤ 2 := by
  cases ind <;> decide

/-- R211: an instruction that completes adds 3 to 7 ticks, and one that halts at least 2. -/
theorem tickBounds_of_charged {s t : State} {op : Opcode} {ind : Bool} (hrun : s.status = .running)
    (hb : s.TickBounds) (h : ChargedEnd op (2 + indirectTicks ind) s t) : t.TickBounds := by
  obtain ⟨hlo, hhi⟩ := hb.completed (.inl hrun)
  have hind := indirectTicks_le ind
  cases h with
  | completed status counted not_halt ticks =>
    obtain ⟨hone, hthree⟩ := executeTicks_range not_halt
    exact ⟨fun _ => by omega, by omega⟩
  | halted cause status counted ticks => exact ⟨fun hs => by simp [status] at hs, by omega⟩
  | faulted f status uncounted ticks => exact ⟨fun hs => by simp [status] at hs, by omega⟩

/-- Settles O48: the limit adds no tick, a fetch that faults counts nothing, and every instruction adds the ticks of its
end. -/
theorem stepKeepsTickBounds : Obligations.StepKeepsTickBounds := by
  intro s t hb h
  obtain ⟨hrun, ⟨-, rfl⟩ | ⟨hl, w, hw, -⟩ | ⟨-, -, rfl⟩⟩ := step_next_cases h
  · exact ⟨fun _ => hb.completed (.inl hrun), hb.always⟩
  · exact tickBounds_of_charged hrun hb (step_charged hl hw h)
  · refine ⟨fun hs => by simp at hs, ?_⟩
    exact hb.always.trans (Nat.le_add_right _ _)

/-- Settles O41: a halt of either cause comes before execute's tick. -/
theorem tickTotals : Obligations.TickTotals := by
  intro s t w hl hw h
  obtain ⟨hrun, -⟩ := step_next_cases h
  cases step_charged hl hw h with
  | completed status counted not_halt ticks =>
    rw [← Nat.add_assoc] at ticks
    exact ⟨fun _ => ticks, fun c hc => by simp [status, hrun] at hc⟩
  | halted cause status counted ticks =>
    rw [← Nat.add_assoc] at ticks
    exact ⟨fun hs => by simp [status] at hs, fun _ _ => ticks⟩
  | faulted f status uncounted ticks => exact ⟨fun hs => by simp [status] at hs, fun c hc => by simp [status] at hc⟩

/-! ### The flags left in PS (R125, R206) -/

/-- The value whose flags the ALU still holds after fetch and indirect resolution of `w` (R122, R123). -/
def undrivenValue (w : MachineWord) (s : State) : Int := if w.isIndirect then w.value else s.pc + 1

theorem executeEntry_flags (w : MachineWord) (p : Int) (s : State) :
    (executeEntry w p (fetched w s)).alu.flags = flagsOf (undrivenValue w s) := by
  rw [executeEntry_alu, undrivenValue]
  split <;> rfl

/-- R170, R206: a conditional branch leaves the flags of its target, unless it neither is taken nor drives the ALU. -/
theorem lastValue_of_isConditional {w : MachineWord} (h : isConditional w.opcode = true) (s t : State) :
    lastValue w s t =
      if branchesIn w.opcode s || s.cfg.branchAluAlways then t.dr else undrivenValue w s := by
  obtain ⟨op, v, ind⟩ := w
  cases op with
  | jg | jz | jnz => rfl
  | _ => cases h

/-- R206: a branch that is taken leaves the flags of its target. -/
theorem lastValue_of_taken {w : MachineWord} {s : State} (h : branchesIn w.opcode s = true) (t : State) :
    lastValue w s t = t.dr := by
  obtain ⟨op, v, ind⟩ := w
  cases op with
  | jg | jz | jnz => rw [lastValue_of_isConditional rfl, h, Bool.true_or, if_pos rfl]
  | jmp => rfl
  | _ => cases h

/-- R170: the condition of a branch reads PS alone. -/
theorem branchesIn_congr {u s : State} (h : u.ps = s.ps) (op : Opcode) : branchesIn op u = branchesIn op s := by
  cases op <;> simp only [branchesIn, jgTaken, jzTaken, jnzTaken, h]

/-- R125, R206: an execute phase that completes latches the flags of its last computation, or those it found in the
ALU. -/
theorem executeEnd_ps {w : MachineWord} {s u t : State} (hac : u.ac = s.ac) (hps : u.ps = s.ps) (hcfg : u.cfg = s.cfg)
    (hflags : u.alu.flags = flagsOf (undrivenValue w s)) (h : ExecuteEnd u w.opcode t) (hrun : t.status = .running) :
    t.ps = flagsOf (lastValue w s t) := by
  obtain ⟨op, v, ind⟩ := w
  cases h with
  | halt | inputExhausted | pushFault | popFault | storeFault | readFault => cases hrun
  | nop | input => exact hflags
  | push | store => rw [retire_ps, lastValue, ← hac]
  | cmp | test => rw [retire_ps, lastValue, ← hac]; rfl
  | taken _ h => rw [lastValue_of_taken (by rw [← branchesIn_congr hps]; exact h)]; rfl
  | notTaken _ _ hop hc => rw [lastValue_of_isConditional hop, ← hcfg, hc, Bool.or_true, if_pos rfl]; rfl
  | notTakenIdle _ h hop hc =>
    rw [lastValue_of_isConditional hop, ← hcfg, hc, ← branchesIn_congr hps, h, Bool.or_false, if_neg Bool.false_ne_true]
    exact hflags
  | _ => rfl

/-- Settles O42: execute starts with AC, PS and the parameters of the state before the step, and with the flags of the
last computation of fetch and indirect resolution. -/
theorem flagsLeftInPs : Obligations.FlagsLeftInPs := by
  intro s t w hl hw h hrun
  rcases step_executed hl hw h with ⟨-, rfl⟩ | ⟨p, -, hend⟩
  · cases hrun
  · have hflags := executeEntry_flags w p s
    exact executeEnd_ps (executeEntry_ac w p (fetched w s)) (executeEntry_ps w p _) (executeEntry_cfg w p _) hflags hend
      hrun

/-! ### The step (R120 to R123, R126, R184) -/

/-- R120, R122: below the limit a step is exec of the word at PC, on the state that fetch leaves. -/
theorem step_of_read {s : State} {w : MachineWord} (hs : s.status = .running) (hl : s.instr < s.cfg.limit)
    (hw : memRead s s.pc = some w) : step s = exec (decodeWord w) (fetched w s) := by
  rw [step_of_running hs hl, runInstruction_of_read hw, exec_decodeWord, runInstr]

/-- Settles O37: the state that fetch leaves is the one written out. -/
theorem stepRunsDecodedInstruction : Obligations.StepRunsDecodedInstruction :=
  fun _ _ hs hl hw => ⟨rfl, _, step_of_read hs hl hw⟩

/-- Settles O38: the stop at the limit is R184's. -/
theorem limitStopsBeforeFetch : Obligations.LimitStopsBeforeFetch :=
  fun _ hs hl => step_of_limit hs hl

/-- Settles O34: only indirect resolution can fail to give an operand, and no opcode's microprogram has started then. -/
theorem indirectOperandFault : Obligations.IndirectOperandFault :=
  fun w s hp => ⟨_, (exec_decodeWord w s).trans (runInstr_of_operand_fault _ hp)⟩

/-- Settles O54: by the STATUS, which alone decides both what has ended cleanly and what the host gets. -/
theorem hostGetsResultAtCleanEnds : Obligations.HostGetsResultAtCleanEnds := by
  intro s
  unfold State.endedCleanly hostResult
  cases s.status with
  | halted cause => exact ⟨fun _ => rfl, nofun⟩
  | limitReached => exact ⟨fun _ => rfl, nofun⟩
  | running => exact ⟨nofun, fun _ => rfl⟩
  | faulted f => exact ⟨nofun, fun _ => rfl⟩

/-! ### The tick machine (R128)

A phase of the control unit is a chain of states, one for each group of its microprogram. What comes after the phase is
given as a continuation `f`, so that the phases can be put one behind another. -/

/-- A state that is not its phase's last: if the rest of the phase and what follows runs in `k` ticks, one more does for
all of it; a signal that raises ends both. -/
theorem runTicks_of_next {k : Nat} {m : MicroState} {s : State} {f : State → SignalResult}
    (h : ∀ t, runGroup (microGroup m s) s = .done t →
      ∃ m', nextMicroState m t = some m' ∧ runTicks k m' t = some (settle (f t))) :
    runTicks (k + 1) m s = some (settle ((runGroup (microGroup m s) s).bind f)) := by
  rw [runTicks, microTick]
  cases hg : runGroup (microGroup m s) s with
  | done t =>
    obtain ⟨m', hnext, hrest⟩ := h t hg
    simp only [hnext, hrest, bind_done]
  | raised e t => rfl

/-- The last state of an instruction, which the flag latch and the count ride on. -/
theorem runTicks_of_last {k : Nat} {m : MicroState} (hm : ∀ t, nextMicroState m t = none) (s : State) :
    runTicks (k + 1) m s = some (settle (runMicroprogram [microGroup m s] s)) := by
  rw [runTicks, microTick, runMicroprogram_cons]
  cases runGroup (microGroup m s) s with
  | done t => simp only [hm, bind_done, runMicroprogram_nil, settle_done]
  | raised e t => rfl

/-- A phase of two states, as fetch and indirect resolution are. -/
theorem runTicks_of_two {k : Nat} {m m' : MicroState} {g : Group} {s : State} {f : State → SignalResult}
    (hm : ∀ t, nextMicroState m t = some m') (hg : ∀ t, microGroup m' t = g)
    (h : ∀ t, runMicroprogram [microGroup m s, g] s = .done t →
      ∃ m'', nextMicroState m' t = some m'' ∧ runTicks k m'' t = some (settle (f t))) :
    runTicks (k + 2) m s = some (settle ((runMicroprogram [microGroup m s, g] s).bind f)) := by
  have assoc : (runMicroprogram [microGroup m s, g] s).bind f =
      (runGroup (microGroup m s) s).bind fun t => (runGroup g t).bind f := by
    rw [runMicroprogram_cons]
    cases runGroup (microGroup m s) s with
    | done t => rw [bind_done, bind_done, runMicroprogram_cons]; cases runGroup g t <;> rfl
    | raised e t => rfl
  rw [assoc]
  refine runTicks_of_next fun t ht => ⟨m', hm t, ?_⟩
  rw [← hg t]
  refine runTicks_of_next fun u hu => h u ?_
  rw [runMicroprogram_cons, ht, bind_done, runMicroprogram_cons, ← hg t, hu, bind_done, runMicroprogram_nil]

/-- The execute phase of the operand class: X_OP1, then the state that the opcode in IR names. -/
theorem runTicks_operandClass {k : Nat} {m : MicroState} {g : Group} {u : State}
    (hop : operandState2 u.ir.opcode = some m) (hm : ∀ t, nextMicroState m t = none) (hg : ∀ t, microGroup m t = g) :
    runTicks (k + 2) .xOp1 u = some (settle (runMicroprogram [operandX1, g] u)) := by
  refine runTicks_of_next fun t ht => ⟨m, ?_, ?_⟩
  · obtain rfl := SignalResult.done.inj ((operandX1_eq u).symm.trans ht)
    exact hop
  · rw [← hg t]
    exact runTicks_of_last hm t

/-- R124, R128: from the first execute state of the opcode in IR the tick machine ends as the opcode's microprogram
does, in at most three ticks. -/
theorem runTicks_execute (k : Nat) (u : State) :
    runTicks (k + 3) (executeState u.ir.opcode) u =
      some (settle (runMicroprogram (executeMicro u.ir.opcode u) u)) := by
  cases hop : u.ir.opcode with
  | nop | inc | dec | halt | input => exact runTicks_of_last (fun _ => rfl) u
  | jg | jz | jnz | jmp =>
    refine (runTicks_of_last (m := .xBr) (fun _ => rfl) u).trans ?_
    rw [microGroup, hop]
    rfl
  | push => exact runTicks_of_next (m := .xPush1) fun t _ => ⟨.xPush2, rfl, runTicks_of_last (fun _ => rfl) t⟩
  | pop =>
    exact runTicks_of_next (m := .xPop1) fun t _ => ⟨.xPop2, rfl,
      runTicks_of_next (m := .xPop2) fun t' _ => ⟨.xPop3, rfl, runTicks_of_last (fun _ => rfl) t'⟩⟩
  | load | store | add | sub | mul | div | out | cmp | test =>
    exact runTicks_operandClass (by rw [hop]; rfl) (fun _ => rfl) fun _ => rfl

/-- R123: indirect resolution keeps IR, by which the control unit then goes on. -/
theorem indirectResolve_ir {s t : State} (h : indirectResolve s = .done t) : t.ir = s.ir := by
  cases hread : memRead s s.dr with
  | some w => rw [indirectResolve_of_read hread] at h; cases h; rfl
  | none => rw [indirectResolve_of_fault hread] at h; cases h

/-- R123, R124: from the state that fetch leaves, the tick machine ends as the rest of the instruction does, in at most
five ticks. -/
theorem runTicks_afterFetch (k : Nat) (w : MachineWord) (s : State) :
    runTicks (k + 5) (if w.isIndirect then .i1 else executeState w.opcode) (fetched w s) =
      some (settle (afterFetch w (executeMicro w.opcode) (fetched w s))) := by
  rw [afterFetch, enter_fetched]
  split
  · refine runTicks_of_two (m := .i1) (fun _ => rfl) (fun _ => rfl) fun t ht => ⟨_, rfl, ?_⟩
    have hir : t.ir = w := indirectResolve_ir ht
    rw [← hir]
    exact runTicks_execute k t
  · exact runTicks_execute (k + 2) (fetched w s)

/-- R122: the word that fetch has put into IR. -/
theorem fetch_eq_done {s t : State} (h : fetch s = .done t) : ∃ w, memRead s s.pc = some w ∧ t = fetched w s := by
  cases hread : memRead s s.pc with
  | some w => rw [fetch_of_read hread] at h; cases h; exact ⟨w, rfl, rfl⟩
  | none => rw [fetch_of_fault hread] at h; cases h

/-- Settles O53: two ticks of fetch, two of indirect resolution and three of execute at most. -/
theorem tickMachineAgreesWithStep : Obligations.TickMachineAgreesWithStep := by
  intro s hs hl
  refine ⟨_, step_of_running hs hl, ?_⟩
  refine runTicks_of_two (m := .f1) (fun _ => rfl) (fun _ => rfl) fun t ht => ⟨_, rfl, ?_⟩
  obtain ⟨w, -, rfl⟩ := fetch_eq_done ht
  exact runTicks_afterFetch 1 w s

/-! ### One instruction of a run, and two in sequence (R120, R145, R157, R170) -/

/-- The next step of `s` runs the word `w`, whose operand resolves to `p`. -/
structure Runs (s : State) (w : MachineWord) (p : Int) : Prop where
  running : s.status = .running
  below : s.instr < s.cfg.limit
  word : memRead s s.pc = some w
  operand : operandOf s w.value w.isIndirect = some p

/-- R120: such a step ends as the execute phase of its word does. -/
theorem Runs.exists_step {s : State} {w : MachineWord} {p : Int} (h : Runs s w p) :
    ∃ t, step s = .next t ∧ ExecuteEnd (executeEntry w p (fetched w s)) w.opcode t := by
  have hp : operandOf (fetched w s) w.value w.isIndirect = some p := h.operand
  exact ⟨_, (step_of_read h.running h.below h.word).trans (DatapathSignals.exec_of_operand hp), executeEnd _ _⟩

/-- DR holds the operand when execute starts. -/
theorem Runs.entry_dr {s : State} {w : MachineWord} {p : Int} (h : Runs s w p) :
    (executeEntry w p (fetched w s)).dr = p :=
  executeEntry_dr (s := fetched w s) h.operand

/-- R42: whether an operand resolves depends on MS alone, so a write to memory does not undo it. -/
theorem exists_operandOf {s t : State} (hcfg : t.cfg = s.cfg) {v p : Int} {ind : Bool}
    (h : operandOf s v ind = some p) : ∃ q, operandOf t v ind = some q := by
  refine Option.ne_none_iff_exists'.1 fun hnone => ?_
  rw [operandOf_eq_none, memRead_eq_none, hcfg, ← memRead_eq_none, ← operandOf_eq_none, h] at hnone
  cases hnone

theorem operandOf_congr {s t : State} (hcfg : t.cfg = s.cfg) (hmem : t.mem = s.mem) (v : Int) (ind : Bool) :
    operandOf t v ind = operandOf s v ind := by
  rw [operandOf, operandOf, memRead_congr hcfg hmem]

/-- R144, D7: a push from an SP in memory writes AC to the cell that SP then names. -/
theorem step_push {s : State} {v p : Int} {ind : Bool} (h : Runs s ⟨.push, v, ind⟩ p) (h0 : 0 ≤ s.sp)
    (h1 : s.sp < s.cfg.memorySize) :
    ∃ t, step s = .next t ∧ t.status = .running ∧ t.instr = s.instr + 1 ∧
      t.sp = (s.sp - 1) % s.cfg.memorySize ∧
      ∀ j : Nat, readCell t.mem j =
        if (j : Int) = (s.sp - 1) % s.cfg.memorySize then ⟨.nop, s.ac, false⟩ else readCell s.mem j := by
  obtain ⟨i, hi⟩ := MainMemory.exists_writeIndex (ms := s.cfg.memorySize) (a := s.sp - 1) (by omega) (by omega)
  have hcell : (i : Int) = (s.sp - 1) % s.cfg.memorySize := by
    obtain ⟨-, -, hi⟩ := MainMemory.writeIndex_eq_some.1 hi
    rw [hi]
    split
    · rw [← Int.add_emod_right, Int.emod_eq_of_lt (by omega) (by omega)]
    · rw [Int.emod_eq_of_lt (by omega) (by omega)]
  obtain ⟨t, hstep, hend⟩ := h.exists_step
  refine ⟨t, hstep, ?_⟩
  have hmem := MainMemory.step_readCell_of_cell h.below h.word hstep h.operand hi
  simp only [← Nat.cast_inj (R := Int), hcell] at hmem
  cases hend with
  | push j hj =>
    simp only [retire_status, retire_instr, retire_sp, executeEntry_status, executeEntry_instr, executeEntry_sp, wrap,
      executeEntry_cfg]
    exact ⟨h.running, rfl, rfl, hmem⟩
  | pushFault hnone =>
    rw [executeEntry_cfg, executeEntry_sp] at hnone
    cases hi.symm.trans hnone
  | readFault _ hop | taken _ hop | notTaken _ _ hop | notTakenIdle _ _ hop => cases hop

/-- R145: a pop takes the `value` of the cell that SP names. -/
theorem step_pop {s : State} {v p : Int} {ind : Bool} {w : MachineWord} (h : Runs s ⟨.pop, v, ind⟩ p)
    (hw : memRead s s.sp = some w) :
    ∃ t, step s = .next t ∧ t.status = .running ∧ t.ac = w.value ∧ t.sp = (s.sp + 1) % s.cfg.memorySize ∧
      t.mem = s.mem := by
  obtain ⟨t, hstep, hend⟩ := h.exists_step
  refine ⟨t, hstep, ?_⟩
  cases hend with
  | pop w' hread =>
    rw [memRead_executeEntry, executeEntry_sp] at hread
    cases hw.symm.trans hread
    simp only [retire_status, retire_ac, retire_sp, retire_mem, executeEntry_status, executeEntry_sp, executeEntry_mem,
      wrap, executeEntry_cfg, true_and]
    exact ⟨h.running, rfl, rfl⟩
  | popFault hnone =>
    rw [memRead_executeEntry, executeEntry_sp] at hnone
    cases hw.symm.trans hnone
  | readFault _ hop | taken _ hop | notTaken _ _ hop | notTakenIdle _ _ hop => cases hop

/-- R42: an address reduced mod MS is always readable. -/
theorem memRead_emod {s : State} (hms : 0 < s.cfg.memorySize) (a : Int) :
    memRead s (a % s.cfg.memorySize) = some (readCell s.mem (a % s.cfg.memorySize).toNat) := by
  obtain ⟨hlo, hhi⟩ := wrap_range (s := s) hms a
  exact memRead_eq_some.2 ⟨hlo, hhi, rfl⟩

/-- Settles O35: the push leaves the pop's word and the readability of its pointer as they were, and the pop reads the
cell that the push wrote. -/
theorem pushThenPopRestores : Obligations.PushThenPopRestores := by
  intro v v' p p' ind ind' s hs hl hsp0 hsp1 hpush hp hpop hp' hne
  have hms : 0 < s.cfg.memorySize := by omega
  obtain ⟨t, hstep, hrun, hinstr, hsp, hmem⟩ := step_push ⟨hs, by omega, hpush, hp⟩ hsp0 hsp1
  obtain ⟨hcfg, -, -, -, -, hpc, -⟩ := writersOfEachRegister s t _ (by omega) hpush hstep
  have hmst : 0 < t.cfg.memorySize := by rw [hcfg]; exact hms
  have toNat_emod (a : Int) : ((a % s.cfg.memorySize).toNat : Int) = a % s.cfg.memorySize :=
    Int.toNat_of_nonneg (wrap_range (s := s) hms a).1
  have hword : memRead t t.pc = some ⟨.pop, v', ind'⟩ := by
    rw [hpc (by simp), ← hcfg, memRead_emod hmst, hcfg, hmem, toNat_emod, if_neg hne]
    exact (memRead_emod hms _).symm.trans hpop
  have htop : memRead t t.sp = some ⟨.nop, s.ac, false⟩ := by
    rw [hsp, ← hcfg, memRead_emod hmst, hcfg, hmem, toNat_emod, if_pos rfl]
  obtain ⟨q, hq⟩ := exists_operandOf hcfg hp'
  obtain ⟨u, hstep', hrun', hac', hsp', hmem'⟩ := step_pop ⟨hrun, by rw [hinstr, hcfg]; exact hl, hword, hq⟩ htop
  refine ⟨t, u, hstep, hstep', hrun', hac', ?_, fun j => by rw [hmem', hmem]⟩
  rw [hsp', hsp, hcfg, Int.emod_add_emod, sub_add_cancel, Int.emod_eq_of_lt hsp0 hsp1]

/-- R157, D10: a cmp that reads its operand completes and leaves it in DR. -/
theorem step_cmp {s : State} {v ea : Int} {ind : Bool} {m : MachineWord} (h : Runs s ⟨.cmp, v, ind⟩ ea)
    (hm : memRead s ea = some m) :
    ∃ t, step s = .next t ∧ t.status = .running ∧ t.instr = s.instr + 1 ∧ t.dr = m.value := by
  obtain ⟨t, hstep, hend⟩ := h.exists_step
  refine ⟨t, hstep, ?_⟩
  cases hend with
  | cmp m' hread =>
    rw [memRead_executeEntry, h.entry_dr] at hread
    cases hm.symm.trans hread
    simp only [retire_status, retire_instr, retire_dr, executeEntry_status, executeEntry_instr, and_true]
    exact ⟨h.running, rfl⟩
  | readFault _ _ hnone =>
    rw [memRead_executeEntry, h.entry_dr] at hnone
    cases hm.symm.trans hnone
  | taken _ hop | notTaken _ _ hop | notTakenIdle _ _ hop => cases hop

theorem readsOperand_of_isConditional {op : Opcode} (h : isConditional op = true) : readsOperand op = false := by
  revert h
  cases op <;> decide

/-- R170: a conditional branch goes to its operand, or on to the cell after it, by the PS it finds. -/
theorem step_branch {s : State} {w : MachineWord} {p : Int} (h : Runs s w p) (hop : isConditional w.opcode = true) :
    ∃ t, step s = .next t ∧ t.status = .running ∧
      t.pc = (if branchesIn w.opcode s then p else s.pc + 1) % s.cfg.memorySize := by
  obtain ⟨t, hstep, hend⟩ := h.exists_step
  have hps : (executeEntry w p (fetched w s)).ps = s.ps := executeEntry_ps w p _
  have hcond : branchesIn w.opcode (executeEntry w p (fetched w s)) = branchesIn w.opcode s := branchesIn_congr hps _
  have hcfg : (executeEntry w p (fetched w s)).cfg = s.cfg := executeEntry_cfg w p _
  have hpc : (executeEntry w p (fetched w s)).pc = (s.pc + 1) % s.cfg.memorySize := executeEntry_pc w p _
  have hrun : (executeEntry w p (fetched w s)).status = .running := (executeEntry_status w p _).trans h.running
  refine ⟨t, hstep, ?_⟩
  rw [← hcond]
  obtain ⟨op, v, ind⟩ := w
  cases hend with
  | taken _ hb =>
    simp only [retire_status, retire_pc, wrap, h.entry_dr, hcfg]
    exact ⟨hrun, by rw [if_pos hb]⟩
  | notTaken _ hb | notTakenIdle _ hb =>
    simp only [retire_status, retire_pc]
    exact ⟨hrun, by rw [hb, hpc]; rfl⟩
  | readFault _ hreads => cases (readsOperand_of_isConditional hop).symm.trans hreads
  | _ => cases hop

/-- The same where PC is the cell after the address `a`: a branch not taken goes on to the second cell after it. -/
theorem step_branch_of_pc {s : State} {w : MachineWord} {p a : Int} (h : Runs s w p)
    (hop : isConditional w.opcode = true) (hpc : s.pc = (a + 1) % s.cfg.memorySize) :
    ∃ t, step s = .next t ∧ t.status = .running ∧
      t.pc = (if branchesIn w.opcode s then p else a + 2) % s.cfg.memorySize := by
  obtain ⟨t, hstep, hrun, hpc'⟩ := step_branch h hop
  refine ⟨t, hstep, hrun, hpc'.trans ?_⟩
  split
  · rfl
  · rw [hpc, Int.emod_add_emod, add_assoc]
    rfl

/-- Settles O36: the cmp leaves the flags of `AC - m` in PS (O42), by which the branch decides. -/
theorem cmpThenBranch : Obligations.CmpThenBranch := by
  intro v ea target p ind ind' m s hs hl hcmp hea hm hp
  have hl' : s.instr < s.cfg.limit := by omega
  obtain ⟨t, hstep, hrun, hinstr, hdr⟩ := step_cmp ⟨hs, hl', hcmp, hea⟩ hm
  obtain ⟨hcfg, -, -, hac, hmem, hpc, -⟩ := writersOfEachRegister s t _ hl' hcmp hstep
  have hmem : t.mem = s.mem := hmem (by simp)
  have hpc : t.pc = (s.pc + 1) % s.cfg.memorySize := hpc (by simp)
  have hps : t.ps = ⟨decide (s.ac < m.value), decide (s.ac = m.value)⟩ := by
    rw [flagsLeftInPs s t _ hl' hcmp hstep hrun, lastValue, hdr, Alu.flagsOf_sub]
  have branch {op : Opcode} (hop : isConditional op = true) (hw : memRead t t.pc = some ⟨op, target, ind'⟩) :
      ∃ u, step t = .next u ∧ u.status = .running ∧
        u.pc = (if branchesIn op t then p else s.pc + 2) % s.cfg.memorySize := by
    have hruns : Runs t ⟨op, target, ind'⟩ p :=
      ⟨hrun, by rw [hinstr, hcfg]; exact hl, hw, (operandOf_congr hcfg hmem _ _).trans hp⟩
    rw [← hcfg] at hpc ⊢
    exact step_branch_of_pc hruns hop hpc
  refine ⟨t, hstep, hrun, hac (by simp), hdr, hmem, hpc, fun hw => ?jg, fun hw => ?jz, fun hw => ?jnz⟩
  case jg => simpa [branchesIn, jgTaken, hps] using branch rfl hw
  case jz => simpa [branchesIn, jzTaken, hps] using branch rfl hw
  case jnz => simpa [branchesIn, jnzTaken, hps] using branch rfl hw

end Sys2Proof.Proofs.ControlUnit

/-! PROOF. nop and the nullary class: what the execute phase of each opcode leaves, and with it each instruction's result
and frame (spec/43_nullary.md R140 to R145; R120, R123, R146, R183). -/

namespace Sys2Proof.Proofs.Nullary

open Sys2Proof Sys2Proof.Machine Sys2Proof.Proofs.DatapathSignals

/-! ### The execute phase (R120, R121, R124) -/

/-- R120, R124: the state that the execute phase of an opcode leaves, with the flag latch and the count or the event that
end it. -/
def executed (op : Opcode) (u : State) : State := settle (runMicroprogram (executeMicro op u) u)

/-- R120, R122, R123: an instruction whose operand resolves runs its execute phase with the operand in DR; indirect
resolution shows beside it in Addr, in the ALU and in its two ticks. -/
theorem exists_exec_eq_executed {w : MachineWord} {s : State} {p : Int}
    (h : operandOf s w.value w.isIndirect = some p) :
    ∃ l, exec (decodeWord w) s = .next (executed w.opcode { s with
      ir := w, dr := p, addr := if w.isIndirect then w.value else s.addr
      alu := if w.isIndirect then ⟨w.value, flagsOf w.value⟩ else s.alu, aluInputs := l
      tick := s.tick + indirectTicks w.isIndirect }) := by
  obtain ⟨l, hentry⟩ := exists_executeEntry_eq h
  exact ⟨l, by rw [exec_of_operand h, hentry, executed]⟩

section Groups

variable {g : Group} {u t : State}

/-- R120: the groups after one that completes run from the state it leaves. -/
theorem runMicroprogram_cons_of_done (h : runGroup g u = .done t) (rest : Microprogram) :
    runMicroprogram (g :: rest) u = runMicroprogram rest t := by
  rw [runMicroprogram_cons, h, bind_done]

/-- R120, R125: the flag latch and the count follow a last group that completes. -/
theorem settle_group_of_done (h : runGroup g u = .done t) : settle (runMicroprogram [g] u) = retire t := by
  rw [runMicroprogram_cons_of_done h, runMicroprogram_nil, settle_done]

/-- R120: a group that raises ends the instruction with its event. -/
theorem settle_group_of_raised {e : Event} (h : runGroup g u = .raised e t) (rest : Microprogram) :
    settle (runMicroprogram (g :: rest) u) = takeEvent e t := by
  rw [runMicroprogram_cons, h, bind_raised, settle_raised]

end Groups

/-! ### What each opcode's execute phase leaves (R140 to R145) -/

section Executed

variable (u : State)

theorem executed_nop : executed .nop u = retire { u with tick := u.tick + 1 } :=
  settle_group_of_done (nopX1_eq u)

theorem executed_inc : executed .inc u = retire { u with
    ac := u.ac + 1, alu := ⟨u.ac + 1, flagsOf (u.ac + 1)⟩, aluInputs := ⟨some u.ac, none, some .incA⟩
    tick := u.tick + 1 } :=
  settle_group_of_done (incX1_eq u)

theorem executed_dec : executed .dec u = retire { u with
    ac := u.ac - 1, alu := ⟨u.ac - 1, flagsOf (u.ac - 1)⟩, aluInputs := ⟨some u.ac, none, some .decA⟩
    tick := u.tick + 1 } :=
  settle_group_of_done (decX1_eq u)

/-- R143: the halt condition comes before any tick, and instead of the flag latch. -/
theorem executed_halt : executed .halt u = takeEvent (.halt .haltInstr) u :=
  settle_group_of_raised (haltX0_eq u) []

variable {u}

/-- R144: the second group writes to the address that the first has latched. -/
theorem executed_push {i : Nat} (h : writeIndex u.cfg.memorySize (u.sp - 1) = some i) :
    executed .push u = retire { u with
      sp := wrap u (u.sp - 1), addr := u.sp - 1, toMem := u.ac, mem := setCell i (.nopOf u.ac) u.mem
      alu := ⟨u.ac, flagsOf u.ac⟩, aluInputs := ⟨some u.ac, none, some .skipA⟩, tick := u.tick + 2 } := by
  rw [executed, executeMicro, runMicroprogram_cons_of_done (pushX1_eq u)]
  exact settle_group_of_done (pushX2_of_index h)

/-- R145: the second group reads at the SP that the first has latched into Addr, and the third moves DR to AC. -/
theorem executed_pop {w : MachineWord} (h : memRead u u.sp = some w) :
    executed .pop u = retire { u with
      addr := u.sp, sp := wrap u (u.sp + 1), dr := w.value, ac := w.value, alu := ⟨w.value, flagsOf w.value⟩
      aluInputs := ⟨none, some w.value, some .skipB⟩, tick := u.tick + 3 } := by
  rw [executed, executeMicro, runMicroprogram_cons_of_done (popX1_eq u), runMicroprogram_cons_of_done (popX2_of_read h)]
  exact settle_group_of_done (popX3_eq _)

end Executed

/-- R144, D7: from an SP in memory, the unreduced address one below it names the cell that the new SP does; -1 names the
last cell. -/
theorem exists_writeIndex_below {ms : Nat} {a : Int} (h0 : 0 ≤ a) (h1 : a < ms) :
    ∃ i, writeIndex ms (a - 1) = some i ∧ (i : Int) = (a - 1) % ms := by
  obtain ⟨i, hi⟩ := MainMemory.exists_writeIndex (ms := ms) (a := a - 1) (by omega) (by omega)
  obtain ⟨-, -, hcell⟩ := MainMemory.writeIndex_eq_some.1 hi
  refine ⟨i, hi, hcell.trans ?_⟩
  split
  · rw [← Int.add_emod_right, Int.emod_eq_of_lt (by omega) (by omega)]
  · rw [Int.emod_eq_of_lt (by omega) (by omega)]

/-! ### The instructions -/

/-- Settles O21: nop drives no ALU operation, so the flags latched are those of indirect resolution or of an earlier
computation. -/
theorem nopResult : Obligations.NopResult := by
  intro v ind p s hp
  obtain ⟨l, hexec⟩ := exists_exec_eq_executed (w := ⟨.nop, v, ind⟩) hp
  refine ⟨l, hexec.trans ?_⟩
  simp only [executed_nop, retire, latchPsFlags, apply_ite AluOutputs.flags]

/-- Settles O22: the one computation on AC overwrites what indirect resolution left in the ALU. -/
theorem incDecResult : Obligations.IncDecResult := by
  intro v ind p s hp
  constructor
  · obtain ⟨_, hexec⟩ := exists_exec_eq_executed (w := ⟨.inc, v, ind⟩) hp
    exact ⟨_, hexec.trans (congrArg _ (executed_inc _))⟩
  · obtain ⟨_, hexec⟩ := exists_exec_eq_executed (w := ⟨.dec, v, ind⟩) hp
    exact ⟨_, hexec.trans (congrArg _ (executed_dec _))⟩

/-- Settles O23: the halt is taken on the state in which execute starts. -/
theorem haltResult : Obligations.HaltResult := by
  intro v ind p s hp
  obtain ⟨l, hexec⟩ := exists_exec_eq_executed (w := ⟨.halt, v, ind⟩) hp
  exact ⟨l, hexec.trans (congrArg _ (executed_halt _))⟩

/-- Settles O24: the cell written is the one that the address below SP names, and a read of another cell does not see the
write. -/
theorem pushResult : Obligations.PushResult := by
  intro v ind p s hp h0 h1
  obtain ⟨_, hexec⟩ := exists_exec_eq_executed (w := ⟨.push, v, ind⟩) hp
  obtain ⟨i, hindex, hcell⟩ := exists_writeIndex_below h0 h1
  refine ⟨_, setCell i (.nopOf s.ac) s.mem, hexec.trans (congrArg _ (executed_push hindex)), fun j => ?_⟩
  rw [MainMemory.readCell_setCell, ← hcell]
  simp only [Nat.cast_inj, MachineWord.nopOf]

/-- Settles O25: SP lies in memory, so the read at it is admitted. -/
theorem popResult : Obligations.PopResult := by
  intro v ind p s hp h0 h1
  obtain ⟨_, hexec⟩ := exists_exec_eq_executed (w := ⟨.pop, v, ind⟩) hp
  have hread : memRead s s.sp = some (readCell s.mem s.sp.toNat) := memRead_eq_some.2 ⟨h0, h1, rfl⟩
  exact ⟨_, hexec.trans (congrArg _ (executed_pop hread))⟩

end Sys2Proof.Proofs.Nullary

/-! PROOF. The operand class but for in: the two ticks of each execute phase, the fault on the operand's cell in the second
of them, and with them each instruction's result and frame (spec/44_operand.md R150 to R159; R43, R181, R187, R192). -/

namespace Sys2Proof.Proofs.OperandClass

open Sys2Proof Sys2Proof.Machine Sys2Proof.Proofs.Nullary

/-! ### The execute phase (R150 to R152, R159) -/

section Executed

variable (u : State)

/-- R150: X1 latches the operand into Addr, and the microprogram goes on from there. -/
theorem settle_operandX1 (rest : Microprogram) :
    settle (runMicroprogram (operandX1 :: rest) u) = settle (runMicroprogram rest { u with
      addr := u.dr, alu := ⟨u.dr, flagsOf u.dr⟩, aluInputs := ⟨none, some u.dr, some .skipB⟩
      tick := u.tick + 1 }) := by
  rw [runMicroprogram_cons_of_done (operandX1_eq u)]

/-- D10: the second tick of every opcode that reads its operand's cell begins with the read. -/
theorem exists_executeMicro_eq {op : Opcode} (hop : readsOperand op = true) :
    ∃ rest, executeMicro op u = [operandX1, .signal .latchDr :: rest] := by
  cases op with
  | load | add | sub | mul | div | cmp | test => exact ⟨_, rfl⟩
  | _ => cases hop

theorem executed_out :
    executed .out u = retire { u with
      addr := u.dr, outBuf := if u.dr = outputPort then u.outBuf ++ [u.ac] else u.outBuf
      alu := ⟨u.dr, flagsOf u.dr⟩, aluInputs := ⟨none, some u.dr, some .skipB⟩, tick := u.tick + 2 } := by
  rw [executed, executeMicro, settle_operandX1]
  exact settle_group_of_done (outX2_eq _)

variable {u}

/-- R181, R187: a read that is not admitted stops X2 before the rest of it, whichever opcode reads. -/
theorem executed_of_read_fault {op : Opcode} (hop : readsOperand op = true) (h : memRead u u.dr = none) :
    executed op u = takeEvent (.fatal (.addressFault u.dr)) { u with
      addr := u.dr, alu := ⟨u.dr, flagsOf u.dr⟩, aluInputs := ⟨none, some u.dr, some .skipB⟩
      tick := u.tick + 1 } := by
  obtain ⟨rest, hmicro⟩ := exists_executeMicro_eq u hop
  rw [executed, hmicro, settle_operandX1]
  exact settle_group_of_raised (group_of_latchDr_fault rest h) []

theorem executed_load {w : MachineWord} (h : memRead u u.dr = some w) :
    executed .load u = retire { u with
      addr := u.dr, dr := w.value, ac := w.value, alu := ⟨w.value, flagsOf w.value⟩
      aluInputs := ⟨none, some w.value, some .skipB⟩, tick := u.tick + 2 } := by
  rw [executed, executeMicro, settle_operandX1]
  exact settle_group_of_done (loadX2_of_read h)

theorem executed_store {i : Nat} (h : writeIndex u.cfg.memorySize u.dr = some i) :
    executed .store u = retire { u with
      addr := u.dr, toMem := u.ac, mem := setCell i (.nopOf u.ac) u.mem, alu := ⟨u.ac, flagsOf u.ac⟩
      aluInputs := ⟨some u.ac, none, some .skipA⟩, tick := u.tick + 2 } := by
  rw [executed, executeMicro, settle_operandX1]
  exact settle_group_of_done (storeX2_of_index h)

/-- R152, D9: the write is the last signal of X2, so its fault finds AC in ToMem and in the ALU. -/
theorem executed_store_fault (h : writeIndex u.cfg.memorySize u.dr = none) :
    executed .store u = takeEvent (.fatal (.addressFault u.dr)) { u with
      addr := u.dr, toMem := u.ac, alu := ⟨u.ac, flagsOf u.ac⟩, aluInputs := ⟨some u.ac, none, some .skipA⟩
      tick := u.tick + 1 } := by
  rw [executed, executeMicro, settle_operandX1]
  exact settle_group_of_raised (storeX2_of_fault h) []

end Executed

/-! ### The instructions that read the operand's cell (R151, R153 to R158, D10)

`op` is the opcode and `aluOp` the ALU operation that its X2 asks for. -/

section Reading

variable {op : Opcode} {aluOp : AluOp} {v ea x : Int} {ind : Bool} {s : State} {w : MachineWord}

/-- R181, R196: all of them fault alike. -/
theorem exec_of_read_fault (hop : readsOperand op = true) (hp : operandOf s v ind = some ea)
    (hnone : memRead s ea = none) :
    ∃ l, exec (decodeWord ⟨op, v, ind⟩) s = .next (s.afterOperandFault op v ind ea l) := by
  obtain ⟨_, hexec⟩ := exists_exec_eq_executed (w := ⟨op, v, ind⟩) hp
  exact ⟨_, hexec.trans (congrArg _ (executed_of_read_fault hop hnone))⟩

/-- R153 to R156: the ALU's value of AC and the operand read goes to AC. -/
theorem exec_of_arithX2 (hmicro : ∀ u, executeMicro op u = [operandX1, arithX2 aluOp])
    (hp : operandOf s v ind = some ea) (hread : memRead s ea = some w)
    (hx : aluValue aluOp (some s.ac) (some w.value) = some x) (hstores : aluStores aluOp = true) :
    ∃ l, exec (decodeWord ⟨op, v, ind⟩) s =
      .next { s.afterOperandRead op v ind ea w.value x ⟨x, flagsOf x⟩ l with
        diag := aluDiagnostics aluOp (some w.value) s.diag } := by
  obtain ⟨_, hexec⟩ := exists_exec_eq_executed (w := ⟨op, v, ind⟩) hp
  rw [executed, hmicro] at hexec
  exact ⟨_, hexec.trans (congrArg _ (settle_arith _ hread hx hstores))⟩

/-- R157, R158: only the flags of that value are kept; ALU.result is what X1 left there. -/
theorem exec_of_compareX2 (hmicro : ∀ u, executeMicro op u = [operandX1, compareX2 aluOp])
    (hp : operandOf s v ind = some ea) (hread : memRead s ea = some w)
    (hx : aluValue aluOp (some s.ac) (some w.value) = some x) (hstores : aluStores aluOp = false) :
    ∃ l, exec (decodeWord ⟨op, v, ind⟩) s =
      .next { s.afterOperandRead op v ind ea w.value s.ac ⟨ea, flagsOf x⟩ l with
        diag := aluDiagnostics aluOp (some w.value) s.diag } := by
  obtain ⟨_, hexec⟩ := exists_exec_eq_executed (w := ⟨op, v, ind⟩) hp
  rw [executed, hmicro] at hexec
  exact ⟨_, hexec.trans (congrArg _ (settle_compare _ hread hx hstores))⟩

end Reading

/-! ### The obligations -/

/-- Settles O26: the read goes to DR and through the ALU to AC, or stops X2 at its first signal. -/
theorem loadResult : Obligations.LoadResult := by
  intro v ind ea s hp
  constructor
  · intro w hread
    obtain ⟨_, hexec⟩ := exists_exec_eq_executed (w := ⟨.load, v, ind⟩) hp
    exact ⟨_, hexec.trans (congrArg _ (executed_load hread))⟩
  · exact exec_of_read_fault (op := .load) rfl hp

/-- Settles O27: the cell written is the one that the effective address names, and a read of another cell does not see the
write. -/
theorem storeResult : Obligations.StoreResult := by
  intro v ind ea s hp
  obtain ⟨_, hexec⟩ := exists_exec_eq_executed (w := ⟨.store, v, ind⟩) hp
  constructor
  · rintro ⟨hlo, hhi⟩
    obtain ⟨i, hindex⟩ := MainMemory.exists_writeIndex hlo hhi
    obtain ⟨-, -, hcell⟩ := MainMemory.writeIndex_eq_some.1 hindex
    refine ⟨_, setCell i (.nopOf s.ac) s.mem, hexec.trans (congrArg _ (executed_store hindex)), fun j => ?_⟩
    rw [MainMemory.readCell_setCell, ← hcell]
    simp only [Nat.cast_inj, MachineWord.nopOf]
  · intro hout
    exact ⟨_, hexec.trans (congrArg _ (executed_store_fault (writeIndex_eq_none.2 hout)))⟩

/-- Settles O28: each opcode asks for the ALU operation of its name, and none of the three has a diagnostic. -/
theorem addSubMulResult : Obligations.AddSubMulResult := by
  intro v ind ea s hp
  constructor
  · intro w hread
    exact ⟨exec_of_arithX2 (op := .add) (aluOp := .add) (fun _ => rfl) hp hread rfl rfl,
      exec_of_arithX2 (op := .sub) (aluOp := .sub) (fun _ => rfl) hp hread rfl rfl,
      exec_of_arithX2 (op := .mul) (aluOp := .mul) (fun _ => rfl) hp hread rfl rfl⟩
  · intro hnone
    exact ⟨exec_of_read_fault (op := .add) rfl hp hnone, exec_of_read_fault (op := .sub) rfl hp hnone,
      exec_of_read_fault (op := .mul) rfl hp hnone⟩

/-- Settles O29: the divisor read decides between the floor quotient and 0 with the diagnostic. -/
theorem divResult : Obligations.DivResult := by
  intro v ind ea s hp
  have hmicro (u : State) : executeMicro .div u = [operandX1, arithX2 .div] := rfl
  refine ⟨?quotient, ?byZero, exec_of_read_fault (op := .div) rfl hp⟩
  case quotient =>
    intro w hread hne
    have hquot : aluValue .div (some s.ac) (some w.value) = some (floorDiv s.ac w.value) := by simp [aluValue, hne]
    have hdiv := exec_of_arithX2 hmicro hp hread hquot rfl
    rwa [Alu.aluDiagnostics_div_of_ne hne] at hdiv
  case byZero =>
    rintro ⟨_, _, _⟩ hread rfl
    exact exec_of_arithX2 (x := 0) hmicro hp hread rfl rfl

/-- Settles O30: CMP's flags are those of the order, as they are those of the difference, and TEST's those of the AND. -/
theorem cmpTestResult : Obligations.CmpTestResult := by
  intro v ind ea s hp
  constructor
  · intro w hread
    rw [← Alu.flagsOf_sub, ← Alu.flagsOf_bitAnd]
    exact ⟨exec_of_compareX2 (op := .cmp) (aluOp := .cmp) (fun _ => rfl) hp hread rfl rfl,
      exec_of_compareX2 (op := .test) (aluOp := .test) (fun _ => rfl) hp hread rfl rfl⟩
  · intro hnone
    exact ⟨exec_of_read_fault (op := .cmp) rfl hp hnone, exec_of_read_fault (op := .test) rfl hp hnone⟩

/-- Settles O31: X1 leaves the port in Addr and in the ALU, and X2 compares it with the one output port. -/
theorem outResult : Obligations.OutResult := by
  intro v ind p s hp
  obtain ⟨_, hexec⟩ := exists_exec_eq_executed (w := ⟨.out, v, ind⟩) hp
  exact ⟨_, hexec.trans (congrArg _ (executed_out _))⟩

end Sys2Proof.Proofs.OperandClass

/-! PROOF. The branches: the one execute tick that the four share, by the condition and by BRANCH_ALU_ALWAYS, and with it
each branch's result and frame (spec/45_branch.md R170 to R175, D11). -/

namespace Sys2Proof.Proofs.Branch

open Sys2Proof Sys2Proof.Machine Sys2Proof.Proofs.Nullary Sys2Proof.Proofs.ControlUnit

/-- R171 to R174: the execute phase of every branch is X1 on the branch's own condition. -/
theorem executeMicro_of_branch {op : Opcode} (hop : op ∈ [.jg, .jz, .jnz, .jmp]) (u : State) :
    executeMicro op u = [branchX1 (branchesIn op u) u] := by
  cases op with
  | jg | jz | jnz | jmp => rfl
  | _ => simp at hop

/-- R170, D11: PC follows the condition alone; the ALU passes the target through if it is driven, and otherwise keeps its
outputs; the tick is charged in each case. -/
theorem branchX1_eq (taken : Bool) (u : State) :
    runGroup (branchX1 taken u) u = .done { u with
      pc := if taken then wrap u u.dr else u.pc
      alu := if taken || u.cfg.branchAluAlways then ⟨u.dr, flagsOf u.dr⟩ else u.alu
      aluInputs := if taken || u.cfg.branchAluAlways then ⟨none, some u.dr, some .skipB⟩ else u.aluInputs
      tick := u.tick + 1 } := by
  cases taken with
  | true => exact branchX1_taken u
  | false =>
    cases h : u.cfg.branchAluAlways with
    | true => exact branchX1_driven h
    | false => exact branchX1_idle h

/-- R120, R170: a branch completes in that one group; any state with the same PS has its condition. -/
theorem executed_of_branch {op : Opcode} {u s : State} (hop : op ∈ [.jg, .jz, .jnz, .jmp]) (hps : u.ps = s.ps) :
    executed op u = retire { u with
      pc := if branchesIn op s then wrap u u.dr else u.pc
      alu := if branchesIn op s || u.cfg.branchAluAlways then ⟨u.dr, flagsOf u.dr⟩ else u.alu
      aluInputs := if branchesIn op s || u.cfg.branchAluAlways then ⟨none, some u.dr, some .skipB⟩ else u.aluInputs
      tick := u.tick + 1 } := by
  rw [executed, executeMicro_of_branch hop, branchesIn_congr hps]
  exact settle_group_of_done (branchX1_eq _ u)

/-- R170, R175: what every branch leaves; indirect resolution leaves PS, and so the condition, alone. -/
theorem exec_of_branch {op : Opcode} {v p : Int} {ind : Bool} {s : State} (hop : op ∈ [.jg, .jz, .jnz, .jmp])
    (hp : operandOf s v ind = some p) :
    ∃ l, exec (decodeWord ⟨op, v, ind⟩) s = .next (s.afterBranch op v ind p (branchesIn op s) l) := by
  obtain ⟨_, hexec⟩ := exists_exec_eq_executed (w := ⟨op, v, ind⟩) hp
  exact ⟨_, hexec.trans (congrArg _ (executed_of_branch hop rfl))⟩

/-- Settles O33: each branch's condition is a reading of PS, which holds for jmp always. -/
theorem branchResult : Obligations.BranchResult := by
  intro v ind p s hp
  exact ⟨exec_of_branch (op := .jg) (by decide) hp, exec_of_branch (op := .jz) (by decide) hp,
    exec_of_branch (op := .jnz) (by decide) hp, exec_of_branch (op := .jmp) (by decide) hp⟩

end Sys2Proof.Proofs.Branch

/-! PROOF. Refusals and endings: the loader's refusals, and the state that a halt and an
AddressFault leave (spec/60_exceptions.md R181 to R183, R196; R62, R200). -/

namespace Sys2Proof.Proofs.Exceptions

open Sys2Proof Sys2Proof.Machine Sys2Proof.Proofs.Encoding Sys2Proof.Proofs.StateFields

/-! ### What the loader accepts (R200) -/

/-- R61: the 20 tags are the spellings of the 20 opcodes. -/
theorem opcodeTags_contains_iff {tag : String} : opcodeTags.contains tag = true ↔ ∃ op, opcodeTag op = tag := by
  have spelled : opcodeTags = opcodes.map opcodeTag := rfl
  have listed : ∀ op : Opcode, op ∈ opcodes := fun op => by cases op <;> decide
  rw [List.contains_iff_mem, spelled, List.mem_map]
  exact exists_congr fun op => and_iff_right (listed op)

/-- R62, D6: a value that is accepted stands for an integer, an absent one for 0. -/
theorem value_wellFormed_iff {a : ArtifactValue} :
    a.wellFormed = true ↔ ∃ v, a = .int v ∨ v = 0 ∧ a = .absent := by
  cases a with
  | int v => exact ⟨fun _ => ⟨v, .inl rfl⟩, fun _ => rfl⟩
  | absent => exact ⟨fun _ => ⟨0, .inr ⟨rfl, rfl⟩⟩, fun _ => rfl⟩
  | string text => simp [ArtifactValue.wellFormed]

/-- R200, D22: the objects that the loader decodes are those that meet its requirements. -/
theorem exists_decodeArtifactWord_iff {ms : Nat} {a : ArtifactWord} :
    (∃ k w, decodeArtifactWord ms a = .ok (k, w)) ↔ a.wellFormed ms = true := by
  simp only [ArtifactWord.wellFormed, Bool.and_eq_true, opcodeTags_contains_iff, value_wellFormed_iff]
  constructor
  · rintro ⟨k, w, h⟩
    obtain ⟨hcell, htag, hvalue, -⟩ := decodeArtifactWord_eq_ok.1 h
    exact ⟨⟨⟨_, htag⟩, _, hvalue⟩, (index_eq_cell_iff.2 hcell).1⟩
  · rintro ⟨⟨⟨op, htag⟩, v, hvalue⟩, hrange⟩
    have hcell := index_eq_cell_iff.1 ⟨hrange, rfl⟩
    exact ⟨_, ⟨op, v, a.isIndirect⟩, decodeArtifactWord_eq_ok.2 ⟨hcell, htag, hvalue, rfl⟩⟩

/-- R200: a program is placed, into whatever memory, where each of its objects is accepted. -/
theorem exists_placeProgram_iff {ms : Nat} {p : List ArtifactWord} {m : Memory} :
    (∃ m', placeProgram ms p m = .ok m') ↔ ∀ a ∈ p, a.wellFormed ms = true := by
  induction p generalizing m with
  | nil => simp [placeProgram]
  | cons a p ih =>
    rw [List.forall_mem_cons, ← exists_decodeArtifactWord_iff]
    simp only [placeProgram_cons_eq_ok]
    constructor
    · rintro ⟨m', k, w, hdec, hrest⟩
      exact ⟨⟨k, w, hdec⟩, ih.1 ⟨m', hrest⟩⟩
    · rintro ⟨⟨k, w, hdec⟩, hall⟩
      obtain ⟨m', hrest⟩ := ih.2 hall
      exact ⟨m', k, w, hdec, hrest⟩

/-- R5, D22: the loader's one requirement of the parameters. -/
theorem config_wellFormed_iff {cfg : Config} : cfg.wellFormed = true ↔ 1 ≤ cfg.memorySize := decide_eq_true_iff

/-- R200: the loads that build a machine. -/
theorem exists_load_iff {cfg : Config} {input : List Int} {program : List ArtifactWord} :
    (∃ s, load cfg input program = .next s) ↔
      cfg.wellFormed = true ∧ ∀ a ∈ program, a.wellFormed cfg.memorySize = true := by
  rw [config_wellFormed_iff, ← exists_placeProgram_iff (m := [])]
  constructor
  · rintro ⟨s, h⟩
    obtain ⟨hms, m, hm, -⟩ := load_eq_next h
    exact ⟨hms, m, hm⟩
  · rintro ⟨hms, m, hm⟩
    exact ⟨_, by rw [load, if_neg (Nat.one_le_iff_ne_zero.1 hms), hm]⟩

/-- R200, D22: a load builds a machine or is refused with a ConfigFault, and nothing else. -/
theorem load_next_or_configFault (cfg : Config) (input : List Int) (program : List ArtifactWord) :
    (∃ s, load cfg input program = .next s) ∨ ∃ e, load cfg input program = .refused (.configFault e) := by
  unfold load
  split
  · exact .inr ⟨_, rfl⟩
  · split
    · exact .inr ⟨_, rfl⟩
    · exact .inl ⟨_, rfl⟩

/-- Settles O4: the loads that build a machine are those of R200's requirements, and every other one is refused. -/
theorem loadAcceptsExactlyWellFormed : Obligations.LoadAcceptsExactlyWellFormed := by
  intro cfg input program
  split
  · next hwf => exact exists_load_iff.2 hwf
  · next hwf => exact (load_next_or_configFault cfg input program).resolve_left fun hs => hwf (exists_load_iff.1 hs)

/-! ### The state at a halt and at an AddressFault (R181, R183, R196) -/

/-- R143, R160, R183: an execute phase that halts has changed nothing before its event. -/
theorem executeEnd_halted {u t : State} {op : Opcode} {c : HaltCause} (h : ExecuteEnd u op t)
    (hrun : u.status = .running) (hs : t.status = .halted c) : t = takeEvent (.halt c) u := by
  cases h with
  | halt | inputExhausted => cases hs; rfl
  | pushFault | popFault | storeFault | readFault => cases hs
  | _ => cases hrun.symm.trans hs

/-- R181, R196: the state `t` that a fault `f` in the execute phase of `op`, started in `u`, leaves. The fault is on the
address in Addr, the instruction is not counted, and its flags are not latched; unless `op` is push or pop, which access
the stack, the access that faults is that of the operand's cell, in execute's second tick. -/
structure ExecuteFault (op : Opcode) (f : FatalFault) (u t : State) : Prop where
  fault : f = .addressFault t.addr
  instr : t.instr = u.instr
  ps : t.ps = u.ps
  ac : t.ac = u.ac
  mem : t.mem = u.mem
  ir : t.ir = u.ir
  operandAccess : op ≠ .push → op ≠ .pop →
    t.pc = u.pc ∧ t.tick = u.tick + 1 ∧ t.addr = u.dr ∧ (op = .store → t.toMem = u.ac)

/-- R144, R145, R150 to R158: the four accesses of an execute phase that can fault. -/
theorem executeEnd_faulted {u t : State} {op : Opcode} {f : FatalFault} (h : ExecuteEnd u op t)
    (hrun : u.status = .running) (hs : t.status = .faulted f) : ExecuteFault op f u t := by
  cases h with
  | pushFault =>
    cases hs
    exact ⟨rfl, rfl, rfl, rfl, rfl, rfl, fun hpush => absurd rfl hpush⟩
  | popFault =>
    cases hs
    exact ⟨rfl, rfl, rfl, rfl, rfl, rfl, fun _ hpop => absurd rfl hpop⟩
  | storeFault =>
    cases hs
    exact ⟨rfl, rfl, rfl, rfl, rfl, rfl, fun _ _ => ⟨rfl, rfl, rfl, fun _ => rfl⟩⟩
  | readFault _ hop =>
    cases hs
    refine ⟨rfl, rfl, rfl, rfl, rfl, rfl, fun _ _ => ⟨rfl, rfl, rfl, ?_⟩⟩
    rintro rfl
    cases hop
  | halt | inputExhausted => cases hs
  | _ => cases hrun.symm.trans hs

section Step

variable {s t : State} {w : MachineWord} (hl : s.instr < s.cfg.limit) (hw : memRead s s.pc = some w)
  (h : step s = .next t)

include hl hw h

/-- R183, R196: a step that halts leaves what fetch and indirect resolution have made, and the event. -/
theorem step_halted {c : HaltCause} (hs : t.status = .halted c) :
    ∃ p, operandOf s w.value w.isIndirect = some p ∧ t = takeEvent (.halt c) (executeEntry w p (fetched w s)) := by
  obtain ⟨hrun, -⟩ := step_next_cases h
  rcases step_executed hl hw h with ⟨-, rfl⟩ | ⟨p, hp, hend⟩
  · cases hs
  · exact ⟨p, hp, executeEnd_halted hend ((executeEntry_status w p (fetched w s)).trans hrun) hs⟩

/-- R181, R196: a step that has fetched its word faults in indirect resolution or in its execute phase. -/
theorem step_faulted {f : FatalFault} (hs : t.status = .faulted f) :
    (operandOf s w.value w.isIndirect = none ∧ f = .addressFault w.value ∧ t = { fetched w s with
      addr := w.value, alu := ⟨w.value, flagsOf w.value⟩, aluInputs := ⟨none, some w.value, some .skipB⟩,
      tick := s.tick + 3, status := .faulted (.addressFault w.value) }) ∨
      ∃ p, operandOf s w.value w.isIndirect = some p ∧
        ExecuteFault w.opcode f (executeEntry w p (fetched w s)) t := by
  obtain ⟨hrun, -⟩ := step_next_cases h
  rcases step_executed hl hw h with ⟨hp, rfl⟩ | ⟨p, hp, hend⟩
  · cases hs
    exact .inl ⟨hp, rfl, rfl⟩
  · exact .inr ⟨p, hp, executeEnd_faulted hend ((executeEntry_status w p (fetched w s)).trans hrun) hs⟩

end Step

/-- R122, R123, R127: TICK when execute starts. -/
theorem executeEntry_fetched_tick (w : MachineWord) (p : Int) (s : State) :
    (executeEntry w p (fetched w s)).tick = s.tick + 2 + indirectTicks w.isIndirect :=
  executeEntry_tick w p (fetched w s)

/-- R67: DR when execute starts, by the operand that the state before the step gives. -/
theorem executeEntry_fetched_dr {s : State} {w : MachineWord} {p : Int}
    (hp : operandOf s w.value w.isIndirect = some p) : (executeEntry w p (fetched w s)).dr = p :=
  executeEntry_dr (s := fetched w s) hp

/-- Settles O43: a halt leaves the state in which execute starts; an AddressFault comes in the second tick of indirect
resolution, or in the second of execute. -/
theorem stateAtEachEnding : Obligations.StateAtEachEnding := by
  intro s t w hl hw h
  constructor
  · intro c hs
    obtain ⟨p, hp, rfl⟩ := step_halted hl hw h hs
    refine ⟨executeEntry_pc w p _, executeEntry_fetched_tick w p s, ?instr, executeEntry_ps w p _,
      executeEntry_ir w p _, executeEntry_addr w p _, ?result, ?operand, executeEntry_ac w p _, executeEntry_sp w p _,
      executeEntry_toMem w p _, executeEntry_mem w p _, executeEntry_inBuf w p _, executeEntry_outBuf w p _,
      executeEntry_diag w p _⟩
    case instr =>
      rw [takeEvent_halt_instr, executeEntry_cfg, executeEntry_instr]
      rfl
    case result =>
      rw [takeEvent_halt_alu, executeEntry_alu, apply_ite AluOutputs.result]
      rfl
    case operand => rw [takeEvent_halt_dr, executeEntry_fetched_dr hp, hp]
  · intro f hs
    rcases step_faulted hl hw h hs with ⟨hp, rfl, rfl⟩ | ⟨p, hp, hfault⟩
    · refine ⟨rfl, rfl, rfl, rfl, rfl, rfl, fun _ => ⟨rfl, rfl, rfl, rfl⟩, fun ea hea => ?_⟩
      cases hp.symm.trans hea
    · refine ⟨hfault.fault, ?instr, ?ps, ?ac, ?mem, ?ir, fun hnone => ?unresolved,
        fun ea hea hpush hpop => ?access⟩
      case instr => exact hfault.instr.trans (executeEntry_instr w p _)
      case ps => exact hfault.ps.trans (executeEntry_ps w p _)
      case ac => exact hfault.ac.trans (executeEntry_ac w p _)
      case mem => exact hfault.mem.trans (executeEntry_mem w p _)
      case ir => exact hfault.ir.trans (executeEntry_ir w p _)
      case unresolved => cases hp.symm.trans hnone
      case access =>
        cases hp.symm.trans hea
        obtain ⟨hpc, htick, haddr, htoMem⟩ := hfault.operandAccess hpush hpop
        rw [executeEntry_fetched_tick] at htick
        exact ⟨hpc.trans (executeEntry_pc w p _), by omega, haddr.trans (executeEntry_fetched_dr hp),
          fun hop => (htoMem hop).trans (executeEntry_ac w p _)⟩

end Sys2Proof.Proofs.Exceptions
